-- ==== Sys2Proof/Word.lean ====
section
/-! DEFINITION. The word type of RGTC-ENC: SRC, OUT and the samples are bytes (spec/10_state.md R22). -/

namespace Sys2Proof

/-- A byte of SRC or OUT, a sample, or an endpoint (spec/10_state.md R11, R12, R22). -/
abbrev Byte := BitVec 8

end Sys2Proof
end

