-- ==== Sys2Proof/Config.lean ====
section
/-! DEFINITION. What an implementation or a launch fixes (spec/00_scope.md section 4, spec/10_state.md R25), and the
free values: constants without a body, of which no proof can see the value. -/

namespace Sys2Proof

/-- The parameters the spec leaves open (spec/00_scope.md section 4). No step writes them (R25); they stand in
`State` so that one statement covers every machine and every launch (log entries 1 and 2). -/
structure Params where
  /-- `CH_BYTE[0]`: the byte of the texel that channel 0 samples (R32, D3). -/
  chByte0 : Fin 4
  /-- `CH_BYTE[1]`: the byte of the texel that channel 1 samples (R32, D3). -/
  chByte1 : Fin 4
  /-- `DIM_BITS`: width of the registers WIDTH and HEIGHT (R19, D4). -/
  dimBits : Nat
  /-- `STRIDE_BITS`: width of the register STRIDE (R20, D4). -/
  strideBits : Nat
  /-- `SRC_LEN`: bytes of SRC the platform backs (R31, D7). -/
  srcLen : Nat
  /-- `OUT_CAP`: bytes of OUT the platform backs (R35, D8). -/
  outCap : Nat
  /-- Offsets of OUT writes below `OUT_CAP` that the platform refuses for a reason of its own (R139; log entry 16). -/
  outRefused : List Nat
  /-- `WORKERS`: independent block pipelines. The blocks are issued in the reference order whatever it is; with more
  than one worker the code of a fault may be drawn (R122, R141; log entry 15). -/
  workers : Nat
deriving DecidableEq, Repr

/-- The parameters of `State.reset`: the spec's defaults `CH_BYTE = (0, 1)`, `DIM_BITS = 16`, `STRIDE_BITS = 32` and
one worker; both memories backed over every offset of R22 (DESIGN CHOICE, log entry 2). -/
def Params.default : Params where
  chByte0 := 0
  chByte1 := 1
  dimBits := 16
  strideBits := 32
  srcLen := 2 ^ 48
  outCap := 2 ^ 33
  outRefused := []
  workers := 1

namespace Config

/-- FREE VALUE (log entry 4): the content of a register the spec leaves unspecified. `tick` is the counter `State.free`,
`site` tells apart the draws of one step. -/
opaque freeBits (w tick site : Nat) : BitVec w

/-- FREE VALUE (log entry 4): the content of TROW, TCOL or CH after RESET, where R24 leaves it unspecified. -/
opaque freeNat (tick site : Nat) : Nat

/-- FREE VALUE (log entry 24): which of several values, all of them allowed, the machine takes, where the spec says
"not defined which": a SRC byte the host writes during a job (R158), the content of OUT outside DONE (R143, R159,
R160), the code of a fault of two workers (U7). `tick` is the counter `State.free`, `site` names the choice. -/
opaque freeChoice (tick : Nat) (site : List Nat) : Nat

/-- FREE VALUE (log entry 7): the clamped coordinate of EXTRACT when the image has no row or no column, an operand
for which R71 states no result because the sequencer never issues it. -/
opaque emptyClamp (x : Nat) : Nat

end Config

end Sys2Proof
end

