-- ==== Sys2Proof/Syntax.lean ====
section
/-! DEFINITION. The instruction set: the six micro-operations and the two host commands (spec/30_encoding.md R50). -/

namespace Sys2Proof

/-- One constructor per row of spec/opcode_table.json. The only operand of the set is the lane of QUANT (R90), typed
so that no ill-formed instruction can be written. -/
inductive Instr where
  /-- EXTRACT (R70): read the 16 samples of the block. -/
  | extract
  /-- ENDPTS (R80): select the endpoints. -/
  | endpts
  /-- QUANT k (R90): the wire code of sample `k`. -/
  | quant (k : Fin 16)
  /-- PACK (R105): assemble the 64-bit block. -/
  | pack
  /-- STORE (R107): write the block into its slot. -/
  | store
  /-- NEXT (R116): loop control. -/
  | next
  /-- START (R118): host command. -/
  | start
  /-- RESET (R120): host command. -/
  | reset
deriving DecidableEq, Repr

end Sys2Proof
end

