-- ==== Sys2Proof/WellFormed.lean ====
section
/-! DEFINITION. The checks on raw values: the sequencer's code, the value a host writes to CTRL, the parameters. An
`Instr` needs none: its one operand is typed `Fin 16`, so every term of `Instr` is well-formed (R61: what cannot occur
is not representable). -/

namespace Sys2Proof

/-- The field OP of a UPC code (spec/30_encoding.md R59). -/
def upcOp (u : BitVec 7) : BitVec 3 := u.extractLsb' 4 3

/-- The field K of a UPC code (R59). -/
def upcLane (u : BitVec 7) : BitVec 4 := u.extractLsb' 0 4

/-- A UPC code that R59 gives a meaning: OP 0 to 6, and K zero unless OP is QUANT (R61). -/
def upcWellFormed (u : BitVec 7) : Bool :=
  upcOp u != 7#3 && (upcOp u == 3#3 || upcLane u == 0#4)

/-- A value of CTRL that is a command: 1 or 2, every higher bit zero (R60, R61). -/
def ctrlWellFormed (v : Nat) : Bool := v == 1 || v == 2

/-- The one bound the spec puts on a parameter that its type does not: at least one worker (R122). -/
def Params.wellFormed (p : Params) : Bool := 1 ≤ p.workers

end Sys2Proof
end

