-- ==== Sys2Proof/Decode.lean ====
section
/-! DEFINITION. Decoding and encoding of the UPC codes (spec/30_encoding.md R59) and of the CTRL commands (R60). The
two formats are separate: UPC is the sequencer's register, CMD the value a host writes to CTRL. RGTC-ENC fetches no
instruction (R43), so no byte order applies to a code. -/

namespace Sys2Proof

/-- Why a code is rejected. -/
inductive Rejection where
  /-- OP = 0: no micro-operation, the value of OP whenever STATE is not BUSY (R59). -/
  | noOperation
  /-- OP = 7: reserved, never produced (R59, R61). -/
  | reservedOp
  /-- K not 0 where OP is not QUANT (R61). -/
  | laneOutsideQuant
  /-- A CTRL value other than 1 and 2 (R61, R62). -/
  | reservedCommand
deriving DecidableEq, Repr

/-- The codes of R59, `(OP, K)` side by side. -/
def upcCode (op : BitVec 3) (k : BitVec 4) : BitVec 7 := op ++ k

/-- The micro-operation a UPC code names (R59). -/
def decodeUpc (u : BitVec 7) : Except Rejection Instr :=
  let k := upcLane u
  if upcOp u = 0#3 then .error .noOperation
  else if upcOp u = 7#3 then .error .reservedOp
  else if upcOp u = 3#3 then .ok (.quant k.toFin)
  else if k ≠ 0#4 then .error .laneOutsideQuant
  else if upcOp u = 1#3 then .ok .extract
  else if upcOp u = 2#3 then .ok .endpts
  else if upcOp u = 4#3 then .ok .pack
  else if upcOp u = 5#3 then .ok .store
  else .ok .next

/-- The command a value written to CTRL issues (R17, R60, R61). -/
def decodeCtrl (v : Nat) : Except Rejection Instr :=
  if v = 1 then .ok .start
  else if v = 2 then .ok .reset
  else .error .reservedCommand

/-- A code in one of the two formats. -/
inductive Code where
  /-- Format UOP, 7 bits (R59). -/
  | upc (u : BitVec 7)
  /-- Format CMD: the value written to CTRL (R60). -/
  | ctrl (v : Nat)
deriving DecidableEq, Repr

/-- Decoding of a code of either format: total, rejecting by name. -/
def decode : Code → Except Rejection Instr
  | .upc u => decodeUpc u
  | .ctrl v => decodeCtrl v

/-- The code of an instruction (R59, R60). -/
def encode : Instr → Code
  | .extract => .upc (upcCode 1 0)
  | .endpts => .upc (upcCode 2 0)
  | .quant k => .upc (upcCode 3 (BitVec.ofFin k))
  | .pack => .upc (upcCode 4 0)
  | .store => .upc (upcCode 5 0)
  | .next => .upc (upcCode 6 0)
  | .start => .ctrl 1
  | .reset => .ctrl 2

/-- The number a code is in spec/opcode_table.json, bit 0 the least significant bit of its one word. -/
def codeNumber : Code → Nat
  | .upc u => u.toNat
  | .ctrl v => v

/-- The code a number of the opcode table stands for: the rows of format CMD are the numbers below 4, those of format
UOP the 7-bit numbers from 16 on (no number belongs to a row of each). -/
def tableCode (w : Nat) : Option Code :=
  if w < 4 then some (.ctrl w)
  else if w < 128 then some (.upc (BitVec.ofNat 7 w))
  else none

/-- The instruction read from a table row's bits: `nbits` is the width the table gives the row; a code is one word, so
every bit from `nbits` up is 0. -/
def decodeTableWord (nbits w : Nat) : Option Instr :=
  match tableCode (w % 2 ^ nbits) with
  | some c => (decode c).toOption
  | none => none

end Sys2Proof
end

