-- ==== Sys2Proof/Machine/State.lean ====
section
/-! DEFINITION. The state of RGTC-ENC (spec/10_state.md): control registers, datapath registers, sequencer position,
the memories SRC and OUT, the parameters, and the host's side. Plain data. -/

namespace Sys2Proof.Machine

/-- `STATUS.STATE` (R18). -/
inductive JobState where
  | idle
  | busy
  | done
  | error
deriving DecidableEq, Repr

/-- `STATUS.ERR` (R18, R135): 5 to 7 are never produced and not representable (R61). -/
inductive ErrCode where
  | none
  | cfg
  | alloc
  | src
  | out
deriving DecidableEq, Repr

/-- A memory space: the bytes that differ from what an unlisted offset reads as, offsets strictly rising. -/
abbrev Mem := List Host.Cell

/-- An access of the host (the lines of a host program, R65, and the reset input, R155). -/
inductive HostOp where
  /-- `WR REG, value`: a write to a control register (R16). -/
  | writeReg (n v : Nat)
  /-- `RD REG`: a read of a control register (R16). -/
  | readReg (n : Nat)
  /-- `SRC off: ..`: the host puts bytes into SRC (R65). -/
  | putSrc (off : Nat) (bytes : List Byte)
  /-- The host writes bytes of OUT (R119, R159). -/
  | putOut (off : Nat) (bytes : List Byte)
  /-- `OUT off: ..`: the host reads `len` bytes of OUT (R65). -/
  | getOut (off len : Nat)
  /-- `WAIT`: the host reads STATUS until STATE is not BUSY (R65). -/
  | waitJob
  /-- The reset input (R155). DESIGN CHOICE (log entry 25): N4 leaves its length open; here it is one event without
  duration, and an input held asserted is several of them in a row. -/
  | resetInput
deriving DecidableEq, Repr

/-- A pending host access, and how many steps the encoder makes before it lands (log entry 11). -/
structure HostEvent where
  after : Nat
  op : HostOp
deriving DecidableEq, Repr

/-- What the host has been answered. -/
inductive Reply where
  /-- The value read from register `n`. -/
  | reg (n v : Nat)
  /-- The bytes read from OUT at `off`. -/
  | out (off : Nat) (bytes : List Byte)
deriving DecidableEq, Repr

/-- The operand `image` of the source's functions: WIDTH, HEIGHT, STRIDE and SRC (R70), with the machine's parameters. -/
structure Image where
  width : Nat
  height : Nat
  stride : Nat
  src : Mem
  params : Params
deriving DecidableEq, Repr

/-- A byte the host has written into OUT where the job owns it (R159), and whether it survives into DONE or is
overwritten by the job's byte: not defined which, drawn once, when the host writes it (log entry 13). -/
structure HostPut where
  offset : Nat
  byte : Byte
  survives : Bool
deriving DecidableEq, Repr

/-- What the model keeps of a START that was not ignored, to bound what the spec does not define (R143, R158 to R160;
log entries 13, 14). -/
structure Job where
  /-- WIDTH, HEIGHT, STRIDE and SRC when START was written (R118). -/
  image : Image
  /-- How many bytes of OUT belong to the job: OUT_LEN, or 0 for a START that raised a fault (R143). -/
  len : Nat
  /-- OUT when START was written. -/
  before : Mem
  /-- The bytes the host has put into SRC while the job ran (R158). -/
  srcPuts : List Host.Cell
  /-- The bytes below `len` the host has written into OUT before it read DONE or ERROR, newest first (R159). -/
  outPuts : List HostPut
  /-- The offsets of OUT the host has written otherwise since START. -/
  settled : List Nat
  /-- For an earlier job: STATE was DONE when the next START was written. -/
  completed : Bool
deriving DecidableEq, Repr

/-- No START has been written. -/
def Job.empty : Job where
  image := ⟨0, 0, 0, [], Params.default⟩
  len := 0
  before := []
  srcPuts := []
  outPuts := []
  settled := []
  completed := false

/-- The state of RGTC-ENC (R10). The fields from `inbox` on are the model's own. -/
structure State where
  /-- `STATUS.STATE` (R18). -/
  jobState : JobState
  /-- `STATUS.ERR` (R18). -/
  err : ErrCode
  /-- WIDTH, `DIM_BITS` bits (R19). -/
  width : Nat
  /-- HEIGHT, `DIM_BITS` bits (R19). -/
  height : Nat
  /-- STRIDE, `STRIDE_BITS` bits (R20). -/
  stride : Nat
  /-- TROW, the tile row (R14). -/
  trow : Nat
  /-- TCOL, the tile column (R14). -/
  tcol : Nat
  /-- CH, the channel (R14). -/
  ch : Fin 2
  /-- UPC, the micro-operation to issue next (R14, R59). -/
  upc : BitVec 7
  /-- BLK, the block's samples in raster order (R11, R52). -/
  blk : Vector Byte 16
  /-- MINR, the min endpoint (R12). -/
  minr : Byte
  /-- MAXR, the max endpoint (R12). -/
  maxr : Byte
  /-- DEN (R13). -/
  den : BitVec 8
  /-- MULT (R13). -/
  mult : BitVec 15
  /-- CODE, the wire codes (R13). -/
  code : Vector (BitVec 3) 16
  /-- PACKED, the compressed block (R13). -/
  packed : BitVec 64
  /-- SRC, the source image's buffer (R22, R30). -/
  src : Mem
  /-- OUT, the compressed level's buffer (R22, R34). -/
  out : Mem
  /-- The parameters; no step writes them (R25). -/
  params : Params
  /-- The host's pending accesses, first to land first (log entry 11). -/
  inbox : List HostEvent
  /-- What the host has been answered, oldest first (log entry 11). -/
  replies : List Reply
  /-- START has been written and the host has not yet read DONE or ERROR (R158, R159; log entry 13). -/
  lease : Bool
  /-- The last START that was not ignored (log entry 14). -/
  job : Job
  /-- Those before it, newest first (log entry 14). -/
  earlier : List Job
  /-- The counter of the free values (log entries 4, 24). -/
  free : Nat
deriving DecidableEq, Repr

/-- The machine right after reset (R24, R155). The registers R24 leaves unspecified hold what ENDPTS gives for the
block of zeros, with TROW, TCOL, CH, CODE and PACKED zero (DESIGN CHOICE, log entry 3). -/
def State.reset : State where
  jobState := .idle
  err := .none
  width := 0
  height := 0
  stride := 0
  trow := 0
  tcol := 0
  ch := 0
  upc := 0
  blk := Vector.replicate 16 0
  minr := 0
  maxr := 1
  den := 1
  mult := 28672
  code := Vector.replicate 16 0
  packed := 0
  src := []
  out := []
  params := Params.default
  inbox := []
  replies := []
  lease := false
  job := Job.empty
  earlier := []
  free := 0

/-- The model's own faults. RGTC-ENC's four faults (R135) are next states, recorded in STATUS, and not here. -/
inductive Fault where
  /-- Raised by `hostAccess` for a host write of SRC at an offset the platform does not back (log entry 20): safe. -/
  | hostSrcNotBacked (off : Nat)
  /-- Raised by `hostAccess` for a host access of OUT at an offset the platform does not back (log entry 20): safe. -/
  | hostOutNotBacked (off : Nat)
deriving DecidableEq, Repr

/-- What the model gives no meaning. -/
inductive Refusal where
  /-- Raised by `exec` for an instruction without a meaning: safe; no arm uses it. -/
  | notModelled (mnemonic : String)
  /-- Raised by `execQuant` where `min < max` and `min <= sample <= max` fail (R101, U1; log entry 9): safe. -/
  | quantOutsidePrecondition (k : Fin 16)
  /-- Raised by `issue` for a BUSY machine whose UPC names no micro-operation (R61; log entry 10): safe. -/
  | reservedUpc (u : BitVec 7)
deriving DecidableEq, Repr

end Sys2Proof.Machine
end

