-- ==== Sys2Proof/Machine/Ops.lean ====
section
/-! DEFINITION. The named operations over memory and registers, fault entry (spec/60_exceptions.md R142) and entering
the reset state (spec/10_state.md R24). There is no return from a fault (R144): RESET is the only way out. -/

namespace Sys2Proof.Machine

/-- `ceil_div(a, b)` (spec/00_scope.md section 5). -/
def ceilDiv (a b : Nat) : Nat := (a + b - 1) / b

/-! ### Memory -/

/-- What an offset that no entry lists reads as (DESIGN CHOICE, log entry 6). -/
def Mem.unlisted : Byte := 0

/-- The byte at offset `a` (R31). -/
def Mem.read : Mem → Nat → Byte
  | [], _ => Mem.unlisted
  | c :: m, a => if a = c.1 then c.2 else Mem.read m a

/-- Write one byte, keeping the canonical form. -/
def Mem.write : Mem → Nat → Byte → Mem
  | [], a, v => if v = Mem.unlisted then [] else [(a, v)]
  | c :: m, a, v =>
    if a < c.1 then if v = Mem.unlisted then c :: m else (a, v) :: c :: m
    else if a = c.1 then if v = Mem.unlisted then m else (a, v) :: m
    else c :: Mem.write m a v

/-- Write consecutive bytes from offset `a` on. -/
def Mem.writeBytes : Mem → Nat → List Byte → Mem
  | m, _, [] => m
  | m, a, v :: vs => Mem.writeBytes (Mem.write m a v) (a + 1) vs

/-- Read `n` consecutive bytes from offset `a` on. -/
def Mem.readBytes (m : Mem) (a n : Nat) : List Byte := (List.range n).map fun i => Mem.read m (a + i)

/-- The 8 bytes of a 64-bit value, least significant first (R35). -/
def bytesLE (v : BitVec 64) : List Byte := (List.range 8).map fun i => v.extractLsb' (8 * i) 8

/-- `MemWrite(OUT, a, 8, v)` (R35). -/
def Mem.write64 (m : Mem) (a : Nat) (v : BitVec 64) : Mem := Mem.writeBytes m a (bytesLE v)

/-- The canonical form: offsets strictly rising, no entry equal to what an unlisted offset reads as. -/
def Mem.wf : Mem → Bool
  | [] => true
  | c :: m => c.2 != Mem.unlisted && m.all (fun d => decide (c.1 < d.1)) && Mem.wf m

/-- The cells of consecutive bytes from offset `a` on. -/
def cellsAt : Nat → List Byte → List Host.Cell
  | _, [] => []
  | a, v :: vs => (a, v) :: cellsAt (a + 1) vs

/-- The bytes a list of cells has for offset `a`. -/
def bytesAt (l : List Host.Cell) (a : Nat) : List Byte := (l.filter fun c => c.1 == a).map Prod.snd

/-- The byte a free choice `n` takes out of a list of allowed ones. -/
def pick (n : Nat) (l : List Byte) : Byte :=
  match l with
  | [] => 0
  | [v] => v
  | v :: w :: vs => (v :: w :: vs).getD (n % (vs.length + 2)) 0

/-- A read of SRC at offset `a` is admitted (R31). -/
def srcAdmits (p : Params) (a : Nat) : Bool := a < p.srcLen

/-- The write of the 8 OUT bytes from offset `a` on is admitted (R35), and the platform does not refuse it for a
reason of its own (R139, log entry 16). -/
def outAdmits (p : Params) (a : Nat) : Bool := a + 8 ≤ p.outCap && !p.outRefused.contains a

/-! ### The codes of UPC (R59) -/

def upcNone : BitVec 7 := 0
def upcExtract : BitVec 7 := upcCode 1 0
def upcEndpts : BitVec 7 := upcCode 2 0
def upcQuant (k : Fin 16) : BitVec 7 := upcCode 3 (BitVec.ofFin k)
def upcPack : BitVec 7 := upcCode 4 0
def upcStore : BitVec 7 := upcCode 5 0
def upcNext : BitVec 7 := upcCode 6 0

/-! ### Register updates -/

/-- The next micro-operation, at the same block. -/
def State.setUpc (s : State) (u : BitVec 7) : State := { s with upc := u }

/-- `pc <- (trow, tcol, ch, EXTRACT)`: the start of a block (R14). -/
def State.gotoBlock (s : State) (r c : Nat) (ch : Fin 2) : State :=
  { s with trow := r, tcol := c, ch := ch, upc := upcExtract }

/-- BLK (R11). -/
def State.setBlk (s : State) (b : Vector Byte 16) : State := { s with blk := b }

/-- MINR, MAXR, DEN and MULT, written together by ENDPTS (R80). -/
def State.setEndpoints (s : State) (lo hi : Byte) (den : BitVec 8) (mult : BitVec 15) : State :=
  { s with minr := lo, maxr := hi, den := den, mult := mult }

/-- `CODE[k]` (R13). -/
def State.setCode (s : State) (k : Fin 16) (c : BitVec 3) : State := { s with code := s.code.set k c }

/-- PACKED (R13). -/
def State.setPacked (s : State) (v : BitVec 64) : State := { s with packed := v }

/-- The content of OUT. -/
def State.setOut (s : State) (m : Mem) : State := { s with out := m }

/-- The fields STATE and ERR of STATUS (R18). -/
def State.setStatus (s : State) (st : JobState) (e : ErrCode) : State := { s with jobState := st, err := e }

/-- `raise <Fault>(code)`, the one fault entry (R142): STATE becomes ERROR, ERR the code, the sequencer stops; nothing
else. UPC is written whole: with OP 0 its K is 0 (R59; log entry 5). -/
def State.raiseFault (s : State) (e : ErrCode) : State := (s.setStatus .error e).setUpc upcNone

/-- The reset state entered from a running machine, by RESET (R120) and by the reset input (R155): STATUS, WIDTH,
HEIGHT, STRIDE and UPC take their values; the position and the datapath are unspecified (R24) and become free values
(log entry 4); SRC and OUT are not touched; the host owns the memories again (log entry 13). -/
def State.enterReset (s : State) : State :=
  { s with
    jobState := .idle, err := .none, width := 0, height := 0, stride := 0, upc := upcNone
    trow := Config.freeNat s.free 0, tcol := Config.freeNat s.free 1
    ch := Fin.ofNat 2 (Config.freeNat s.free 2)
    blk := Vector.ofFn fun k : Fin 16 => Config.freeBits 8 s.free (16 + k)
    minr := Config.freeBits 8 s.free 32, maxr := Config.freeBits 8 s.free 33
    den := Config.freeBits 8 s.free 34, mult := Config.freeBits 15 s.free 35
    code := Vector.ofFn fun k : Fin 16 => Config.freeBits 3 s.free (48 + k)
    packed := Config.freeBits 64 s.free 36
    lease := false, free := s.free + 1 }

end Sys2Proof.Machine
end

