-- ==== Sys2Proof/Machine/Operands.lean ====
section
/-! DEFINITION. Operand assembly (spec/30_encoding.md R58): the tile grid, the SRC offsets of EXTRACT, the OUT offset of
STORE, and what the platform admits. Pure functions of an image, so that the job as a function (R115) uses the same
ones. -/

namespace Sys2Proof.Machine

/-- The image the registers and SRC describe. -/
def State.image (s : State) : Image := ⟨s.width, s.height, s.stride, s.src, s.params⟩

/-- `tilesX = ⌈WIDTH/4⌉` (R14). -/
def Image.tilesX (img : Image) : Nat := ceilDiv img.width 4

/-- `tilesY = ⌈HEIGHT/4⌉` (R14). -/
def Image.tilesY (img : Image) : Nat := ceilDiv img.height 4

/-- The byte length of the image's CompressedLevel (R21, R125). -/
def Image.outLen (img : Image) : Nat := img.tilesX * img.tilesY * 16

/-- `CH_BYTE[ch]` (R32). -/
def Params.chByte (p : Params) (ch : Fin 2) : Nat := if ch = 0 then p.chByte0 else p.chByte1

/-- The clamp of R71 to an image dimension. With no row or column (never issued, R71) the result is a free value
(log entry 7). -/
def clampCoord (x dim : Nat) : Nat := if dim = 0 then Config.emptyClamp x else min x (dim - 1)

/-- Source row of sample `k` (R71). -/
def Image.sampleRow (img : Image) (tileRow : Nat) (k : Fin 16) : Nat :=
  clampCoord (4 * tileRow + k / 4) img.height

/-- Source column of sample `k` (R71). -/
def Image.sampleCol (img : Image) (tileCol : Nat) (k : Fin 16) : Nat :=
  clampCoord (4 * tileCol + k % 4) img.width

/-- The SRC offset of the channel byte of the texel at `(row, col)` (R32, R72). -/
def Image.texelOffset (img : Image) (row col : Nat) (ch : Fin 2) : Nat :=
  row * img.stride + 4 * col + Params.chByte img.params ch

/-- The SRC offset EXTRACT reads for sample `k` (R70). -/
def Image.sampleOffset (img : Image) (tileRow tileCol : Nat) (ch : Fin 2) (k : Fin 16) : Nat :=
  img.texelOffset (img.sampleRow tileRow k) (img.sampleCol tileCol k) ch

/-- The slot of a block (R34, R108). -/
def Image.slot (img : Image) (tileRow tileCol : Nat) (ch : Fin 2) : Nat :=
  2 * (tileRow * img.tilesX + tileCol) + ch

/-- The SRC offsets a job reads (R33). -/
def Image.reads (img : Image) (a : Nat) : Bool :=
  (List.range img.height).any fun y => (List.range img.width).any fun x =>
    a == img.texelOffset y x 0 || a == img.texelOffset y x 1

/-- `OUT_LEN`, computed from the present WIDTH and HEIGHT (R21). -/
def State.outLen (s : State) : Nat := s.image.outLen

/-- The OUT offset STORE writes at: 8 times the slot of the present position (R107). -/
def State.slotOffset (s : State) : Nat := 8 * s.image.slot s.trow s.tcol s.ch

/-- The blocks of an image in the order of R115: tile row, tile column, channel. -/
def blocks (img : Image) : List (Nat × Nat × Fin 2) :=
  (List.range img.tilesY).flatMap fun r => (List.range img.tilesX).flatMap fun c => [(r, c, 0), (r, c, 1)]

/-! ### Admission (R31, R35) and the code of a fault -/

/-- All 16 reads of a block are admitted (R31, R70). -/
def extractAdmitted (img : Image) (tileRow tileCol : Nat) (ch : Fin 2) : Bool :=
  (List.finRange 16).all fun k => srcAdmits img.params (img.sampleOffset tileRow tileCol ch k)

/-- The write of a block into its slot is admitted (R35, R107). -/
def storeAdmitted (img : Image) (tileRow tileCol : Nat) (ch : Fin 2) : Bool :=
  outAdmits img.params (8 * img.slot tileRow tileCol ch)

/-- `ERR` when a micro-operation raises `e` (R141): with several workers, and a block of the image that raises SrcFault
and another that raises OutFault, one of the two codes, not defined which (U7; log entry 15); else `e`. -/
def State.faultCode (s : State) (e : ErrCode) : ErrCode :=
  if 1 < s.params.workers ∧
      (blocks s.image).any (fun b => !extractAdmitted s.image b.1 b.2.1 b.2.2) = true ∧
      (blocks s.image).any (fun b => extractAdmitted s.image b.1 b.2.1 b.2.2 &&
        !storeAdmitted s.image b.1 b.2.1 b.2.2) = true then
    if Config.freeChoice s.free [0] % 2 = 0 then .src else .out
  else e

end Sys2Proof.Machine
end

