-- ==== Sys2Proof/Machine/Encoder.lean ====
section
/-! DEFINITION. BlockEncoder: the micro-operation NEXT and the host commands START and RESET
(spec/44_block_encoder.md). -/

namespace Sys2Proof.Machine

/-- NEXT (R116): channel fastest, then tile column, then tile row; after the last block the job is DONE (R119). -/
def execNext (s : State) : Host.Outcome State Fault Refusal :=
  if s.ch = 0 then .next (s.gotoBlock s.trow s.tcol 1)
  else if s.tcol + 1 < s.image.tilesX then .next (s.gotoBlock s.trow (s.tcol + 1) 0)
  else if s.trow + 1 < s.image.tilesY then .next (s.gotoBlock (s.trow + 1) 0 0)
  else .next ((s.setStatus .done s.err).setUpc upcNone)

/-- A START that is not ignored, with `len` bytes of OUT for its job. From here on the memories are the encoder's, until
the host reads DONE or ERROR (R158, R159; log entry 13). -/
def State.launch (s : State) (len : Nat) : State :=
  { s with
    lease := true
    job := {
      image := s.image, len := len, before := s.out, srcPuts := [], outPuts := [], settled := [], completed := false }
    earlier := { s.job with completed := s.jobState == .done } :: s.earlier
    free := s.free + 1 }

/-- START (R118): ignored in BUSY and ERROR; else the CFG check, then the ALLOC check, then DONE at once for an empty
level or BUSY at the first block. -/
def execStart (s : State) : Host.Outcome State Fault Refusal :=
  if s.jobState = .busy ∨ s.jobState = .error then .next s
  else if s.stride < 4 * s.width then .next ((s.launch 0).raiseFault .cfg)
  else if s.outLen > s.params.outCap then .next ((s.launch 0).raiseFault .alloc)
  else if s.outLen = 0 then .next ((s.launch 0).setStatus .done s.err)
  else .next (((s.launch s.outLen).setStatus .busy .none).gotoBlock 0 0 0)

/-- RESET (R120): the reset state, from every state. -/
def execReset (s : State) : Host.Outcome State Fault Refusal := .next s.enterReset

end Sys2Proof.Machine
end

