-- ==== Sys2Proof/Machine/Packer.lean ====
section
/-! DEFINITION. BitPacker: the micro-operations PACK and STORE (spec/43_block_packer.md). -/

namespace Sys2Proof.Machine

/-- A field of a 64-bit value: `v` placed from bit `pos` up. -/
def field {w : Nat} (v : BitVec w) (pos : Nat) : BitVec 64 := v.setWidth 64 <<< pos

/-- `Pack(max, min, codes)` (R105): max in bits 7:0, min in bits 15:8, code `k` in bits 18+3k:16+3k (R54). -/
def pack (hi lo : Byte) (codes : Vector (BitVec 3) 16) : BitVec 64 :=
  (List.finRange 16).foldl (fun v (k : Fin 16) => v ||| field codes[k] (16 + 3 * k)) (field hi 0 ||| field lo 8)

/-- PACK (R105). -/
def execPack (s : State) : Host.Outcome State Fault Refusal :=
  .next ((s.setPacked (pack s.maxr s.minr s.code)).setUpc upcStore)

/-- STORE (R107): the block into its slot, least significant byte first (R35), or OutFault with no byte written
(R139). -/
def execStore (s : State) : Host.Outcome State Fault Refusal :=
  if outAdmits s.params s.slotOffset then
    .next ((s.setOut (Mem.write64 s.out s.slotOffset s.packed)).setUpc upcNext)
  else .next (s.raiseFault (s.faultCode .out))

end Sys2Proof.Machine
end

