-- ==== Sys2Proof/Machine/Endpoints.lean ====
section
/-! DEFINITION. EndpointSelector: the micro-operation ENDPTS (spec/41_endpoint_selector.md). -/

namespace Sys2Proof.Machine

/-- The smallest sample (R81). -/
def blockMin (b : Vector Byte 16) : Nat := b.toList.foldl (fun m x => min m x.toNat) 255

/-- The largest sample (R81). -/
def blockMax (b : Vector Byte 16) : Nat := b.toList.foldl (fun m x => max m x.toNat) 0

/-- The degenerate-block adjustment (R82): equal extrema are moved apart, upwards unless they are 255. -/
def adjustEndpoints (lo hi : Nat) : Nat × Nat :=
  if lo = hi then if hi = 255 then (lo - 1, hi) else (lo, hi + 1) else (lo, hi)

/-- `ComputeEndpoints(block) → (min, max)` (R80). -/
def computeEndpoints (b : Vector Byte 16) : Byte × Byte :=
  let e := adjustEndpoints (blockMin b) (blockMax b)
  (BitVec.ofNat 8 e.1, BitVec.ofNat 8 e.2)

/-- The multiplier of a denominator: `ceil((7 << 12) / den)` (R92). -/
def multiplier (den : Nat) : Nat := ceilDiv (7 <<< 12) den

/-- ENDPTS (R80). -/
def execEndpts (s : State) : Host.Outcome State Fault Refusal :=
  let lo := (computeEndpoints s.blk).1
  let hi := (computeEndpoints s.blk).2
  let den := hi.toNat - lo.toNat
  .next ((s.setEndpoints lo hi (BitVec.ofNat 8 den) (BitVec.ofNat 15 (multiplier den))).setUpc (upcQuant 0))

end Sys2Proof.Machine
end

