-- ==== Sys2Proof/Machine/Quantizer.lean ====
section
/-! DEFINITION. IndexQuantizer: the micro-operation QUANT (spec/42_index_quantizer.md). The formula of R92 and R93 is
normative as written and is not the exact nearest-point formula (R94). -/

namespace Sys2Proof.Machine

/-- The ramp index of the 12-bit fixed-point product (R93). -/
def rampIndex (numerator denominator : Nat) : Nat :=
  (multiplier denominator * numerator + (1 <<< 12) / 2) >>> 12

/-- The wire code of a ramp index (R96). -/
def wireCode (r : Nat) : BitVec 3 :=
  if r = 7 then 0 else if r = 0 then 1 else BitVec.ofNat 3 (8 - r)

/-- The precondition of `Quantize` (R101): `min < max` and `min <= sample <= max`. -/
def quantizeAdmits (sample lo hi : Byte) : Bool :=
  lo.toNat < hi.toNat && lo.toNat ≤ sample.toNat && sample.toNat ≤ hi.toNat

/-- The wire code of a sample by the formula of R90. -/
def quantizeCode (sample lo hi : Byte) : BitVec 3 :=
  wireCode (rampIndex (sample.toNat - lo.toNat) (hi.toNat - lo.toNat))

/-- `Quantize(sample, min, max)`: no value outside its precondition (R90, R101). -/
def quantize (sample lo hi : Byte) : Option (BitVec 3) :=
  if quantizeAdmits sample lo hi then some (quantizeCode sample lo hi) else none

/-- The position after lane `k` (R90). -/
def upcAfterLane (k : Fin 16) : BitVec 7 := if k.val < 15 then upcQuant (k + 1) else upcPack

/-- QUANT k (R90). The denominator and the multiplier are computed from MINR and MAXR as the rule's pseudocode does;
DEN and MULT hold the same values in every job (log entry 8). Refused outside the precondition (R101, log entry 9). -/
def execQuant (k : Fin 16) (s : State) : Host.Outcome State Fault Refusal :=
  match quantize s.blk[k] s.minr s.maxr with
  | some c => .next ((s.setCode k c).setUpc (upcAfterLane k))
  | none => .refused (.quantOutsidePrecondition k)

end Sys2Proof.Machine
end

