-- ==== Sys2Proof/Machine/Sampler.lean ====
section
/-! DEFINITION. BlockSampler: the micro-operation EXTRACT (spec/40_block_sampler.md). -/

namespace Sys2Proof.Machine

/-- `Extract(image, tileRow, tileCol, channel)`: the block's samples in raster order (R70). -/
def extract (img : Image) (tileRow tileCol : Nat) (ch : Fin 2) : Vector Byte 16 :=
  Vector.ofFn fun k => Mem.read img.src (img.sampleOffset tileRow tileCol ch k)

/-- What a read of the SRC byte at `a` may return during a job: `now`, its content, if the host has not put it since
START; else the byte it had at START or one the host put (R158, not defined which). -/
def Job.srcBytes (j : Job) (a : Nat) (now : Byte) : List Byte :=
  match bytesAt j.srcPuts a with
  | [] => [now]
  | vs => Mem.read j.image.src a :: vs

/-- The samples EXTRACT reads at the present position: each the content of SRC (R70), or a free choice where the host
has written the byte during the job (R158; log entry 13). -/
def State.sampleBlock (s : State) : Vector Byte 16 :=
  Vector.ofFn fun k =>
    let a := s.image.sampleOffset s.trow s.tcol s.ch k
    pick (Config.freeChoice s.free [1, s.image.slot s.trow s.tcol s.ch, k]) (s.job.srcBytes a (Mem.read s.src a))

/-- EXTRACT (R70): the samples into BLK, or SrcFault with BLK left as it is (R138; log entry 21). -/
def execExtract (s : State) : Host.Outcome State Fault Refusal :=
  if extractAdmitted s.image s.trow s.tcol s.ch then .next ((s.setBlk s.sampleBlock).setUpc upcEndpts)
  else .next (s.raiseFault (s.faultCode .src))

end Sys2Proof.Machine
end

