-- ==== Sys2Proof/Machine/Dispatch.lean ====
section
/-! DEFINITION. One arm per instruction of spec/opcode_table.json. -/

namespace Sys2Proof.Machine

def exec (i : Instr) (s : State) : Host.Outcome State Fault Refusal :=
  match i with
  | .extract => Sys2Proof.Machine.execExtract s
  | .endpts => Sys2Proof.Machine.execEndpts s
  | .quant k => Sys2Proof.Machine.execQuant k s
  | .pack => Sys2Proof.Machine.execPack s
  | .store => Sys2Proof.Machine.execStore s
  | .next => Sys2Proof.Machine.execNext s
  | .start => Sys2Proof.Machine.execStart s
  | .reset => Sys2Proof.Machine.execReset s

end Sys2Proof.Machine
end

