-- ==== Sys2Proof/Machine/Flags.lean ====
section
/-! DEFINITION. RGTC-ENC has no arithmetic flags (spec/10_state.md R15); its only status indications are the fields of
STATUS, here as the word the host reads. -/

namespace Sys2Proof.Machine

/-- The code of `STATUS.STATE` (R18). -/
def JobState.bits : JobState → BitVec 2
  | .idle => 0
  | .busy => 1
  | .done => 2
  | .error => 3

/-- The code of `STATUS.ERR` (R18, R135). -/
def ErrCode.bits : ErrCode → BitVec 3
  | .none => 0
  | .cfg => 1
  | .alloc => 2
  | .src => 3
  | .out => 4

/-- STATUS: ERR in bits 4:2, STATE in bits 1:0, every higher bit 0 (R18). -/
def State.statusWord (s : State) : BitVec 5 := s.err.bits ++ s.jobState.bits

end Sys2Proof.Machine
end

