-- ==== Sys2Proof/Machine/Level.lean ====
section
/-! DEFINITION. The block as a function (spec/44_block_encoder.md R115), and with it what OUT may hold when its content
is not defined (spec/70_reset_and_hazards.md R159, R160, spec/60_exceptions.md R143). -/

namespace Sys2Proof.Machine

/-- ENDPTS, the 16 QUANT and PACK on a block of samples: the CompressedBlock (R115). -/
def encodeSamples (b : Vector Byte 16) : BitVec 64 :=
  let e := computeEndpoints b
  pack e.2 e.1 (Vector.ofFn fun k : Fin 16 => quantizeCode b[k] e.1 e.2)

/-- The CompressedBlock of one block of an image (R115). -/
def encodeBlock (img : Image) (tileRow tileCol : Nat) (ch : Fin 2) : BitVec 64 :=
  encodeSamples (extract img tileRow tileCol ch)

/-- The block whose slot is `n` (R34): tile row, tile column, channel. -/
def Image.blockOfSlot (img : Image) (n : Nat) : Nat × Nat × Fin 2 :=
  (n / 2 / img.tilesX, n / 2 % img.tilesX, Fin.ofNat 2 n)

/-- The block a job computes for its slot `n`, where its reads and its write are admitted (R138, R139). A sample whose
byte the host has written during the job is a free choice (R158). -/
def Job.block (j : Job) (choose : List Nat → Nat) (n : Nat) : Option (BitVec 64) :=
  let b := j.image.blockOfSlot n
  if extractAdmitted j.image b.1 b.2.1 b.2.2 && storeAdmitted j.image b.1 b.2.1 b.2.2 then
    some (encodeSamples (Vector.ofFn fun k : Fin 16 =>
      let a := j.image.sampleOffset b.1 b.2.1 b.2.2 k
      pick (choose [n, k]) (j.srcBytes a (Mem.read j.image.src a))))
  else none

/-- The last byte the host has written at `a` while the job owned it. -/
def Job.putAt (j : Job) (a : Nat) : Option HostPut := j.outPuts.find? fun p => p.offset == a

/-- The byte at offset `a` of the level of a completed job, `now` being the content of OUT: the last byte the host wrote
there while the job owned it, if it survives, else the content (R159, R160). -/
def levelByte (j : Job) (now : Mem) (a : Nat) : Byte :=
  match j.putAt a with
  | some p => if p.survives then p.byte else Mem.read now a
  | none => Mem.read now a

/-- The block a job that is not completed has stored in its slot `n`, if it has: not defined whether, a free choice for
each slot and each read (R143, R160, U8). -/
def Job.stored (j : Job) (tick depth n : Nat) : Option (BitVec 64) :=
  if Config.freeChoice tick [2, depth, n] % 2 = 0 then j.block (fun site => Config.freeChoice tick (3 :: depth :: site)) n
  else none

/-- What the host reads at offset `a` of OUT, `now` being its content (R30, R159, R160; log entry 14). The jobs stand
newest first. A byte the host wrote outside a job, and one no job owns, is its content. In a job's own bytes the level
stands once the job is completed; until then each slot is the job's block, if stored, or what it was before START. A byte
the host wrote while the job owned it stands in the place of what was there before START, and perhaps in the place of
the job's byte. -/
def outValue (tick a : Nat) : Mem → List Job → Byte
  | now, [] => Mem.read now a
  | now, j :: js =>
    if j.settled.contains a then Mem.read now a
    else if a < j.len then
      if j.completed then levelByte j now a
      else
        match j.stored tick js.length (a / 8), j.putAt a with
        | some v, none => v.extractLsb' (8 * (a % 8)) 8
        | some v, some p =>
          if Config.freeChoice tick [4, js.length, a] % 2 = 0 then v.extractLsb' (8 * (a % 8)) 8 else p.byte
        | none, some p => p.byte
        | none, none => outValue tick a j.before js
    else outValue tick a now js

/-- STATE is DONE and the host has read it: OUT holds the level of the last job (R40, R160). -/
def State.levelReadable (s : State) : Bool := s.jobState == .done && !s.lease

/-- The byte of OUT the host reads at `a`. -/
def State.outByte (s : State) (a : Nat) : Byte :=
  outValue s.free a s.out ({ s.job with completed := s.levelReadable } :: s.earlier)

end Sys2Proof.Machine
end

