-- ==== Sys2Proof/Machine/HostPort.lean ====
section
/-! DEFINITION. The host's side of RGTC-ENC: the register port (spec/10_state.md R16 to R21), the host's accesses of SRC
and OUT and its duties (spec/70_reset_and_hazards.md R158 to R161), and the reset input (R155). -/

namespace Sys2Proof.Machine

/-- A register read (R16): CTRL reads 0, OUT_LEN is computed, numbers from 6 on read 0 (R61; log entry 12). -/
def State.readReg (s : State) (n : Nat) : Nat :=
  match n with
  | 1 => s.statusWord.toNat
  | 2 => s.width
  | 3 => s.height
  | 4 => s.stride
  | 5 => s.outLen
  | _ => 0

/-- The host has seen DONE or ERROR, and with it the end of the job: the memories are its own again (R158, R159). -/
def State.pollStatus (s : State) : State :=
  { s with lease := s.lease && !(s.jobState == .done || s.jobState == .error) }

/-- A register read of the host: the value is its answer, and a read of STATUS can end the lease. -/
def hostReadReg (n : Nat) (s : State) : State :=
  let t := if n = 1 then s.pollStatus else s
  { t with replies := t.replies ++ [.reg n (s.readReg n)] }

/-- A write to WIDTH, HEIGHT or STRIDE: the low bits of the value, ignored while BUSY (R19, R20, R161). -/
def writeDims (n v : Nat) (s : State) : State :=
  if s.jobState = .busy then s
  else if n = 2 then { s with width := v % 2 ^ s.params.dimBits }
  else if n = 3 then { s with height := v % 2 ^ s.params.dimBits }
  else if n = 4 then { s with stride := v % 2 ^ s.params.strideBits }
  else s

/-- A register write of the host (R16): a value of CTRL that is a command runs it (R17, R60); every other value of
CTRL changes nothing (R61; log entry 12); writes to STATUS, OUT_LEN and the numbers from 6 on are ignored. -/
def hostWriteReg (n v : Nat) (s : State) : Host.Outcome State Fault Refusal :=
  if n = 0 then
    match decodeCtrl v with
    | .ok i => exec i s
    | .error _ => .next s
  else .next (writeDims n v s)

/-- The host puts bytes into SRC (R30). While a job runs it should not (R158): the model keeps the bytes, since the job
may read the old or the new ones (log entry 13). -/
def hostPutSrc (off : Nat) (bytes : List Byte) (s : State) : Host.Outcome State Fault Refusal :=
  if s.params.srcLen < off + bytes.length then .fault (.hostSrcNotBacked off)
  else .next { s with
    src := Mem.writeBytes s.src off bytes
    job := if s.jobState = .busy then { s.job with srcPuts := s.job.srcPuts ++ cellsAt off bytes } else s.job }

/-- How many bytes of OUT are the encoder's: those of the job until the host has read DONE or ERROR (R159). -/
def State.ownedLen (s : State) : Nat := if s.lease then s.job.len else 0

/-- Bytes the host writes from `off` on where the job owns OUT. Whether one survives is a free choice (R159, log entry
13). -/
def hostPuts (tick off : Nat) (bytes : List Byte) : List HostPut :=
  (cellsAt off bytes).map fun c => ⟨c.1, c.2, Config.freeChoice tick [5, c.1] % 2 == 1⟩

/-- The host writes bytes of OUT (R30). Bytes that are the encoder's it should not write (R159): these stand beside the
content of OUT, since they may be overwritten or may survive (log entry 13). -/
def hostPutOut (off : Nat) (bytes : List Byte) (s : State) : Host.Outcome State Fault Refusal :=
  if s.params.outCap < off + bytes.length then .fault (.hostOutNotBacked off)
  else
    let kept := bytes.take (s.ownedLen - off)
    let others := bytes.drop (s.ownedLen - off)
    .next { s with
      out := Mem.writeBytes s.out (off + kept.length) others
      job := { s.job with
        outPuts := hostPuts s.free off kept ++ s.job.outPuts
        settled := (cellsAt (off + kept.length) others).map Prod.fst ++ s.job.settled }
      free := s.free + 1 }

/-- The host reads `len` bytes of OUT from `off` on. -/
def hostGetOut (off len : Nat) (s : State) : Host.Outcome State Fault Refusal :=
  if s.params.outCap < off + len then .fault (.hostOutNotBacked off)
  else .next { s with
    replies := s.replies ++ [.out off ((List.range len).map fun i => s.outByte (off + i))]
    free := s.free + 1 }

/-- One access of the host lands. The reset input acts at once and needs no hold (DESIGN CHOICE, log entry 25). -/
def hostAccess (op : HostOp) (s : State) : Host.Outcome State Fault Refusal :=
  match op with
  | .writeReg n v => hostWriteReg n v s
  | .readReg n => .next (hostReadReg n s)
  | .putSrc off bytes => hostPutSrc off bytes s
  | .putOut off bytes => hostPutOut off bytes s
  | .getOut off len => hostGetOut off len s
  | .waitJob => .next s.pollStatus
  | .resetInput => .next s.enterReset

end Sys2Proof.Machine
end

