-- ==== Sys2Proof/Machine/Sequencer.lean ====
section
/-! DEFINITION. The sequencer (spec/44_block_encoder.md R117) and its interleaving with the host's accesses (log entry
11). -/

namespace Sys2Proof.Machine

/-- The sequencer issues the micro-operation UPC names (R14, R117). A code that names none is never produced (R61). -/
def issue (s : State) : Host.Outcome State Fault Refusal :=
  match decodeUpc s.upc with
  | .ok i => exec i s
  | .error _ => .refused (.reservedUpc s.upc)

/-- The encoder's move: a micro-operation while BUSY, else nothing (R117, R155; log entry 18). -/
def encoderStep (s : State) : Host.Outcome State Fault Refusal :=
  if s.jobState = .busy then issue s else .next s

/-- One step of the machine. The host's first pending access lands when its count has run out, and the encoder moves
until then; the host's WAIT stays pending while the job runs (R65). -/
def advance (s : State) : Host.Outcome State Fault Refusal :=
  match s.inbox with
  | [] => encoderStep s
  | ⟨n + 1, op⟩ :: rest => encoderStep { s with inbox := ⟨n, op⟩ :: rest }
  | ⟨0, op⟩ :: rest =>
    if op = .waitJob ∧ s.jobState = .busy then issue s else hostAccess op { s with inbox := rest }

/-- The state in which the machine issues the code `c` next. A micro-operation is only ever issued inside a job, so the
state is BUSY with that UPC, nothing of the host pending, and an image of at least one texel with a legal stride
(R71, R118); a command is a pending write to CTRL (log entry 19). -/
def State.withCode (s : State) (c : Code) : State :=
  match c with
  | .upc u =>
    let w := max s.width 1
    { s with
      jobState := .busy, err := .none, upc := u, inbox := []
      width := w, height := max s.height 1, stride := max s.stride (4 * w) }
  | .ctrl v => { s with inbox := [⟨0, .writeReg 0 v⟩] }

end Sys2Proof.Machine
end

