-- ==== Sys2Proof/Machine/Step.lean ====
section
/-! DEFINITION. The step of RGTC-ENC: one micro-operation or one access of the host (spec/44_block_encoder.md R117). -/

namespace Sys2Proof.Machine

/-- One step. -/
def step (s : State) : Host.Outcome State Fault Refusal := advance s

/-- The state whose next step runs the code with the bits `w` (log entry 19). A word of no code of the table leaves
the state as it is. -/
def State.withFetchWord (s : State) (nbits w : Nat) : State :=
  match tableCode (w % 2 ^ nbits) with
  | some c => s.withCode c
  | none => s

end Sys2Proof.Machine
end

