-- ==== Sys2Proof/Safety.lean ====
section
/-! DEFINITION. The terms the claims use: the invariant of the machine, a legal launch, the job as a function
(spec/44_block_encoder.md R115), runs, and what a frame leaves unchanged. -/

namespace Sys2Proof.Machine

/-! ### The invariant -/

/-- What ENDPTS leaves for QUANT and PACK (spec/41_endpoint_selector.md R83, spec/10_state.md R12, R13): strict
endpoints that bracket every sample, and DEN and MULT the functions of them the rules say. -/
structure EndpointsReady (s : State) : Prop where
  strict : s.minr.toNat < s.maxr.toNat
  bracket : ∀ k : Fin 16, s.minr.toNat ≤ s.blk[k].toNat ∧ s.blk[k].toNat ≤ s.maxr.toNat
  den : s.den.toNat = s.maxr.toNat - s.minr.toNat
  mult : s.mult.toNat = ceilDiv 28672 s.den.toNat

/-- What holds while a job runs: UPC names a micro-operation, the position is a tile of the image (R14), the checks of
START still hold, the memories are the encoder's, the image is the one START was written for but for the bytes the host
has put since, and from QUANT on the endpoints are ready. -/
structure Running (s : State) : Prop where
  upc : upcWellFormed s.upc = true ∧ upcOp s.upc ≠ 0#3
  legalStride : 4 * s.width ≤ s.stride
  row : s.trow < s.image.tilesY
  col : s.tcol < s.image.tilesX
  room : s.outLen ≤ s.params.outCap
  job : s.lease = true ∧ s.job.len = s.outLen ∧ { s.job.image with src := s.src } = s.image
  source : ∀ a, (∀ v, (a, v) ∉ s.job.srcPuts) → Mem.read s.src a = Mem.read s.job.image.src a
  endpoints : 3 ≤ (upcOp s.upc).toNat → EndpointsReady s

/-- A job owns no byte of OUT or the whole level of its image (R21, R118). -/
def Job.sized (j : Job) : Prop := j.len = 0 ∨ j.len = j.image.outLen

/-- The invariant of the machine. -/
structure Inv (s : State) : Prop where
  workers : s.params.wellFormed = true
  srcForm : Mem.wf s.src = true
  outForm : Mem.wf s.out = true
  jobForm : ∀ j ∈ s.job :: s.earlier, Mem.wf j.image.src = true ∧ Mem.wf j.before = true ∧ j.sized
  widthFits : s.width < 2 ^ s.params.dimBits
  heightFits : s.height < 2 ^ s.params.dimBits
  strideFits : s.stride < 2 ^ s.params.strideBits
  errOnly : s.err ≠ .none ↔ s.jobState = .error
  stopped : s.jobState ≠ .busy → s.upc = upcNone
  running : s.jobState = .busy → Running s

/-! ### The job as a function -/

/-- One block encoded into its slot of OUT (R107, R108). -/
def storeBlock (img : Image) (out : Mem) (b : Nat × Nat × Fin 2) : Mem :=
  Mem.write64 out (8 * img.slot b.1 b.2.1 b.2.2) (encodeBlock img b.1 b.2.1 b.2.2)

/-- The loop of R115: every block of the image, in order, into OUT. -/
def encodeLevel (img : Image) (out : Mem) : Mem := (blocks img).foldl (storeBlock img) out

/-! ### Launches and runs -/

/-- The platform does not admit some SRC read of the image's blocks (R31, R33). -/
def someReadRefused (s : State) : Prop := ∃ a, s.image.reads a = true ∧ s.params.srcLen ≤ a

/-- The platform does not admit the OUT write of some slot of the level (R34, R35, R139). -/
def someWriteRefused (s : State) : Prop :=
  ∃ r c, ∃ ch : Fin 2, r < s.image.tilesY ∧ c < s.image.tilesX ∧
    (s.params.outCap < 8 * s.image.slot r c ch + 8 ∨ 8 * s.image.slot r c ch ∈ s.params.outRefused)

/-- Some block of the image raises OutFault: its reads are admitted and its write is not (R139, R141). -/
def someOutFault (s : State) : Prop :=
  ∃ r c, ∃ ch : Fin 2, r < s.image.tilesY ∧ c < s.image.tilesX ∧
    (∀ k : Fin 16, s.image.sampleOffset r c ch k < s.params.srcLen) ∧
    (s.params.outCap < 8 * s.image.slot r c ch + 8 ∨ 8 * s.image.slot r c ch ∈ s.params.outRefused)

/-- A START that is accepted and passes its checks (R118); ERR is 0 outside ERROR (R18). -/
structure Accepted (s : State) : Prop where
  state : s.jobState = .idle ∨ s.jobState = .done
  clean : s.err = .none
  legalStride : 4 * s.width ≤ s.stride
  backedOut : s.outLen ≤ s.params.outCap

/-- A launch whose job reaches DONE (spec/44_block_encoder.md R124): START's checks pass and the platform admits every
access of the job. An image with no column or no row is one (R118). -/
structure LegalLaunch (s : State) : Prop where
  accepted : Accepted s
  backedSrc : ¬ someReadRefused s
  willing : ¬ someWriteRefused s

/-- The host writes START, polls with WAIT and reads STATUS (R65, R66, R121), with `rest` after. -/
def launchByHost (s : State) (rest : List HostEvent) : State :=
  { s with inbox := ⟨0, .writeReg 0 1⟩ :: ⟨0, .waitJob⟩ :: ⟨0, .readReg 1⟩ :: rest }

/-- The micro-operations of a job: 42 for each tile (R117). -/
def jobSteps (s : State) : Nat := 42 * (s.image.tilesX * s.image.tilesY)

/-- `n` steps of the machine. -/
def runSteps : Nat → State → Host.Outcome State Fault Refusal
  | 0, s => .next s
  | n + 1, s =>
    match step s with
    | .next t => runSteps n t
    | .fault f => .fault f
    | .refused r => .refused r

/-! ### Rules spelled out, for the claims to compare the machine with -/

/-- The SRC offset EXTRACT reads for sample `k`, as spec/30_encoding.md R58 assembles it from the registers. -/
def clampedOffset (s : State) (k : Fin 16) : Nat :=
  min (4 * s.trow + k / 4) (s.height - 1) * s.stride + 4 * min (4 * s.tcol + k % 4) (s.width - 1) +
    (if s.ch = 0 then s.params.chByte0.val else s.params.chByte1.val)

/-- The exact nearest ramp point, ties up, that the fixed-point formula approximates (spec/92_eei_decisions.md D21). -/
def exactIndex (numerator denominator : Nat) : Nat := (14 * numerator + denominator) / (2 * denominator)

/-- `m` is the smallest sample of the block. -/
def isLeast (m : Byte) (b : Vector Byte 16) : Prop := (∃ j : Fin 16, b[j] = m) ∧ ∀ k : Fin 16, m.toNat ≤ b[k].toNat

/-- `m` is the largest sample of the block. -/
def isGreatest (m : Byte) (b : Vector Byte 16) : Prop := (∃ j : Fin 16, b[j] = m) ∧ ∀ k : Fin 16, b[k].toNat ≤ m.toNat

/-- `b` may be the byte at offset `a` of a job's OUT: the byte of the block of the image in whose slot `a` lies, where
the platform admits its reads and its write, each sample being the byte SRC held at START or one the host put there
while the job ran (R143, R158). -/
def jobMayStore (j : Job) (a : Nat) (b : Byte) : Prop :=
  ∃ r c, ∃ ch : Fin 2, ∃ i x, r < j.image.tilesY ∧ c < j.image.tilesX ∧ i < 8 ∧
    a = 8 * j.image.slot r c ch + i ∧
    (∀ k : Fin 16, j.image.sampleOffset r c ch k < j.image.params.srcLen) ∧
    8 * j.image.slot r c ch + 8 ≤ j.image.params.outCap ∧ 8 * j.image.slot r c ch ∉ j.image.params.outRefused ∧
    (∀ k : Fin 16, x[k] = Mem.read j.image.src (j.image.sampleOffset r c ch k) ∨
      (j.image.sampleOffset r c ch k, x[k]) ∈ j.srcPuts) ∧
    b = (encodeSamples x).extractLsb' (8 * i) 8

/-- `b` may be the byte of OUT at offset `a` (R30, R159, R160), `now` being the content of OUT and the jobs standing
newest first. -/
def mayHold (a : Nat) (b : Byte) : Mem → List Job → Prop
  | now, [] => b = Mem.read now a
  | now, j :: js =>
    (a ∈ j.settled ∧ b = Mem.read now a) ∨
    (a ∉ j.settled ∧ j.len ≤ a ∧ mayHold a b now js) ∨
    (a ∉ j.settled ∧ a < j.len ∧
      ((j.completed = true ∧ b = levelByte j now a) ∨
        (j.completed = false ∧ (jobMayStore j a b ∨ (∃ p, j.putAt a = some p ∧ b = p.byte) ∨
          (j.putAt a = none ∧ mayHold a b j.before js)))))

/-! ### Frames -/

/-- WIDTH, HEIGHT and STRIDE are unchanged. -/
def sameDims (s t : State) : Prop := t.width = s.width ∧ t.height = s.height ∧ t.stride = s.stride

/-- STATUS is unchanged. -/
def sameStatus (s t : State) : Prop := t.jobState = s.jobState ∧ t.err = s.err

/-- TROW, TCOL and CH are unchanged. -/
def samePosition (s t : State) : Prop := t.trow = s.trow ∧ t.tcol = s.tcol ∧ t.ch = s.ch

/-- MINR, MAXR, DEN and MULT are unchanged. -/
def sameEndpoints (s t : State) : Prop :=
  t.minr = s.minr ∧ t.maxr = s.maxr ∧ t.den = s.den ∧ t.mult = s.mult

/-- Every datapath register is unchanged. -/
def sameDatapath (s t : State) : Prop :=
  t.blk = s.blk ∧ sameEndpoints s t ∧ t.code = s.code ∧ t.packed = s.packed

/-- Every byte of SRC is unchanged. -/
def sameSrc (s t : State) : Prop := ∀ a, Mem.read t.src a = Mem.read s.src a

/-- Every byte of OUT is unchanged. -/
def sameOut (s t : State) : Prop := ∀ a, Mem.read t.out a = Mem.read s.out a

/-- The parameters, the host's side and what the model keeps of the jobs are unchanged. -/
def sameSurroundings (s t : State) : Prop :=
  t.params = s.params ∧ t.inbox = s.inbox ∧ t.replies = s.replies ∧ t.lease = s.lease ∧ t.job = s.job ∧
    t.earlier = s.earlier ∧ t.free = s.free

/-- The frame of fault entry (R142): all but STATUS and UPC is unchanged. -/
def faultFrame (s t : State) : Prop :=
  sameDims s t ∧ samePosition s t ∧ sameDatapath s t ∧ sameSrc s t ∧ sameOut s t ∧ sameSurroundings s t

end Sys2Proof.Machine
end

