-- ==== Sys2Proof/Certificates/Slice0/Obligations.lean ====
section
/-! DEFINITION. The statements about the model, for the provers. -/

open Sys2Proof Sys2Proof.Machine

/-! ## Codes (spec/30_encoding.md) -/

/-- R59, R60: the codes of the table, written out bit by bit, decode to the operations they name. -/
def Obligations.SpecCodesDecode : Prop :=
  decodeUpc 0b0010000#7 = .ok .extract ∧ decodeUpc 0b0100000#7 = .ok .endpts ∧
  (∀ k : Fin 16, decodeUpc (0b011#3 ++ BitVec.ofFin (w := 4) k) = .ok (.quant k)) ∧
  decodeUpc 0b1000000#7 = .ok .pack ∧ decodeUpc 0b1010000#7 = .ok .store ∧
  decodeUpc 0b1100000#7 = .ok .next ∧ decodeCtrl 0b01 = .ok .start ∧ decodeCtrl 0b10 = .ok .reset

/-- R59, R60: decoding undoes encoding, and an accepted code is the encoding of what it decodes to. -/
def Obligations.DecodeEncodeAgree : Prop :=
  (∀ i : Instr, decode (encode i) = .ok i) ∧ ∀ (c : Code) (i : Instr), decode c = .ok i → c = encode i

/-- R59, R61: OP 0, OP 7, a lane outside QUANT, and every value of CTRL but 1 and 2 are rejected. -/
def Obligations.ReservedCodesRejected : Prop :=
  (∀ u : BitVec 7, u.extractLsb' 4 3 = 0#3 ∨ u.extractLsb' 4 3 = 7#3 ∨
      (u.extractLsb' 4 3 ≠ 3#3 ∧ u.extractLsb' 0 4 ≠ 0#4) → ∃ e, decodeUpc u = .error e) ∧
  ∀ v : Nat, v ≠ 1 → v ≠ 2 → decodeCtrl v = .error .reservedCommand

/-! ## The step (spec/44_block_encoder.md R117) -/

/-- A step runs the decoded instruction (R117, R17): while BUSY the micro-operation of UPC, whatever the host has pending
for later; and a pending write of a command to CTRL, taken from the head of the host's accesses. The list of pending
accesses, the count that comes one nearer with each step and WAIT staying at the head are the model's choice of log entry
11. -/
def Obligations.StepRunsDecodedInstruction : Prop :=
  (∀ (s : State) (i : Instr), s.jobState = .busy → s.inbox = [] → decodeUpc s.upc = .ok i → step s = exec i s) ∧
  (∀ (s : State) (i : Instr) (n : Nat) (op : HostOp) (rest : List HostEvent), s.jobState = .busy →
    s.inbox = ⟨n + 1, op⟩ :: rest → decodeUpc s.upc = .ok i →
    step s = exec i { s with inbox := ⟨n, op⟩ :: rest }) ∧
  (∀ (s : State) (i : Instr) (rest : List HostEvent), s.jobState = .busy → s.inbox = ⟨0, .waitJob⟩ :: rest →
    decodeUpc s.upc = .ok i → step s = exec i s) ∧
  (∀ (s : State) (i : Instr) (v : Nat) (rest : List HostEvent), s.inbox = ⟨0, .writeReg 0 v⟩ :: rest →
    decodeCtrl v = .ok i → step s = exec i { s with inbox := rest })

/-- Every instruction answers a next state, QUANT where its precondition holds (R101, R135). For EXTRACT on an image with
no row or no column, which R71 says is never issued, this rests on the free coordinate of log entry 7. -/
def Obligations.EveryInstructionCompletes : Prop :=
  ∀ (i : Instr) (s : State),
    (∀ k, i = .quant k → s.minr.toNat < s.maxr.toNat ∧ s.minr.toNat ≤ s.blk[k].toNat ∧
      s.blk[k].toNat ≤ s.maxr.toNat) → ∃ t, exec i s = .next t

/-! ## EXTRACT (spec/40_block_sampler.md) -/

/-- R70: EXTRACT puts the byte of each clamped, channel-selected texel into BLK, or raises SrcFault. A byte the host has
put into SRC while the job runs is read as it was at START or as the host put it (R158). That a faulting EXTRACT leaves
BLK is the model's choice of log entry 21, the whole UPC 0 of log entry 5, the code of two workers of log entry 15. The
empty image is left out: R71 says that EXTRACT is never issued for it. -/
def Obligations.ExtractReadsTheBlock : Prop :=
  ∀ s : State, 1 ≤ s.width → 1 ≤ s.height →
    ((∀ k : Fin 16, clampedOffset s k < s.params.srcLen) →
      ∃ t, exec .extract s = .next t ∧
        (∀ k : Fin 16, (∀ v, (clampedOffset s k, v) ∉ s.job.srcPuts) → t.blk[k] = Mem.read s.src (clampedOffset s k)) ∧
        (∀ k : Fin 16, t.blk[k] = Mem.read s.src (clampedOffset s k) ∨
          t.blk[k] = Mem.read s.job.image.src (clampedOffset s k) ∨ (clampedOffset s k, t.blk[k]) ∈ s.job.srcPuts) ∧
        t.upc = 0b0100000#7 ∧ sameStatus s t ∧ sameDims s t ∧ samePosition s t ∧ sameEndpoints s t ∧
        t.code = s.code ∧ t.packed = s.packed ∧ sameSrc s t ∧ sameOut s t ∧ sameSurroundings s t) ∧
    ((∃ k : Fin 16, s.params.srcLen ≤ clampedOffset s k) →
      ∃ t, exec .extract s = .next t ∧ t.jobState = .error ∧ t.upc = 0 ∧ faultFrame s t ∧
        (t.err = .src ∨ (t.err = .out ∧ 1 < s.params.workers ∧ someOutFault s)))

/-- R33: the offsets the blocks of a job read are exactly the channel bytes of the image's texels; the largest is the
one R33 gives, and it is read. The rule is the spec's own inference: "[derived: from rule R32, 40_block_sampler.md rules
R71, R72 and 44_block_encoder.md rule R115]". -/
def Obligations.JobReadsExactlyTheImage : Prop :=
  ∀ img : Image,
    (∀ a : Nat, (∃ r c ch k, r < img.tilesY ∧ c < img.tilesX ∧ a = img.sampleOffset r c ch k) ↔
      ∃ y x, y < img.height ∧ x < img.width ∧
        (a = y * img.stride + 4 * x + img.params.chByte0.val ∨ a = y * img.stride + 4 * x + img.params.chByte1.val)) ∧
    (∀ r c ch k, r < img.tilesY → c < img.tilesX →
      img.sampleOffset r c ch k ≤ (img.height - 1) * img.stride + 4 * (img.width - 1) +
        max img.params.chByte0.val img.params.chByte1.val) ∧
    (1 ≤ img.width → 1 ≤ img.height →
      ∃ r c ch k, r < img.tilesY ∧ c < img.tilesX ∧
        img.sampleOffset r c ch k = (img.height - 1) * img.stride + 4 * (img.width - 1) +
          max img.params.chByte0.val img.params.chByte1.val)

/-- R74: an image and its top-left 4×4 crop agree on the blocks of tile (0, 0). -/
def Obligations.CropKeepsFirstTile : Prop :=
  ∀ (img : Image) (ch : Fin 2), 4 ≤ img.width → 4 ≤ img.height →
    encodeBlock img 0 0 ch = encodeBlock { img with width := 4, height := 4 } 0 0 ch

/-! ## ENDPTS (spec/41_endpoint_selector.md) -/

/-- R80: ENDPTS writes the extrema, moved apart when equal, with DEN and MULT. -/
def Obligations.EndpointsAreAdjustedExtrema : Prop :=
  ∀ s : State, ∃ t, exec .endpts s = .next t ∧
    (∀ lo hi : Byte, isLeast lo s.blk → isGreatest hi s.blk →
      t.minr = (if lo = hi ∧ hi = 255 then 254 else lo) ∧
      t.maxr = (if lo = hi ∧ hi ≠ 255 then hi + 1 else hi)) ∧
    t.den.toNat + t.minr.toNat = t.maxr.toNat ∧
    t.mult.toNat = (28672 + t.den.toNat - 1) / t.den.toNat ∧
    t.upc = 0b0110000#7 ∧ t.blk = s.blk ∧ t.code = s.code ∧ t.packed = s.packed ∧
    sameStatus s t ∧ sameDims s t ∧ samePosition s t ∧ sameSrc s t ∧ sameOut s t ∧ sameSurroundings s t

/-- R83: after ENDPTS the endpoints are strict, they bracket every sample, and DEN is 1 to 255. That they bracket is the
spec's own inference in R83: "[derived: from rules R81 and R82]". -/
def Obligations.EndpointsStrictAndBracketing : Prop :=
  ∀ s : State, ∃ t, exec .endpts s = .next t ∧ t.minr.toNat < t.maxr.toNat ∧
    1 ≤ t.den.toNat ∧ t.den.toNat ≤ 255 ∧
    (∀ k : Fin 16, t.minr.toNat ≤ t.blk[k].toNat ∧ t.blk[k].toNat ≤ t.maxr.toNat) ∧
    ∀ k : Fin 16, t.blk[k] = s.blk[k]

/-- R82: the degenerate-block law. A block of equal samples gets the endpoints of R82's table and, in every lane, the
one wire code of the table; in any other block both endpoints are samples. -/
def Obligations.DegenerateBlockLaw : Prop :=
  ∀ s : State, ∃ t, exec .endpts s = .next t ∧ t.blk = s.blk ∧
    (∀ v : Byte, (∀ k : Fin 16, s.blk[k] = v) →
      (v ≠ 255 → t.minr = v ∧ t.maxr = v + 1) ∧ (v = 255 → t.minr = 254 ∧ t.maxr = 255) ∧ t.den = 1 ∧
      ∀ k : Fin 16, ∃ u, exec (.quant k) t = .next u ∧ u.code[k] = if v = 255 then 0 else 1) ∧
    ((∃ j k : Fin 16, s.blk[j] ≠ s.blk[k]) →
      (∃ j : Fin 16, s.blk[j] = t.minr) ∧ ∃ k : Fin 16, s.blk[k] = t.maxr)

/-! ## QUANT (spec/42_index_quantizer.md) -/

/-- R90: QUANT k writes the wire code of the fixed-point ramp index into CODE[k] and goes to the next lane or PACK. -/
def Obligations.QuantWritesWireCode : Prop :=
  ∀ (s : State) (k : Fin 16), s.minr.toNat < s.maxr.toNat → s.minr.toNat ≤ s.blk[k].toNat →
    s.blk[k].toNat ≤ s.maxr.toNat →
    ∃ t r, exec (.quant k) s = .next t ∧
      r = ((28672 + (s.maxr.toNat - s.minr.toNat) - 1) / (s.maxr.toNat - s.minr.toNat) *
        (s.blk[k].toNat - s.minr.toNat) + 2048) / 4096 ∧ r ≤ 7 ∧
      t.code[k].toNat = (if r = 7 then 0 else if r = 0 then 1 else 8 - r) ∧
      (∀ j : Fin 16, j ≠ k → t.code[j] = s.code[j]) ∧
      t.upc.toNat = (if k.val < 15 then 0x30 + k.val + 1 else 0x40) ∧
      t.blk = s.blk ∧ sameEndpoints s t ∧ t.packed = s.packed ∧ sameStatus s t ∧ sameDims s t ∧
      samePosition s t ∧ sameSrc s t ∧ sameOut s t ∧ sameSurroundings s t

/-- R101: outside the precondition the pure function has no value. That the micro-operation QUANT is then refused is the
model's choice of log entry 9. -/
def Obligations.QuantRefusesOutsidePrecondition : Prop :=
  (∀ x lo hi : Byte, quantize x lo hi = none ↔
    ¬(lo.toNat < hi.toNat ∧ lo.toNat ≤ x.toNat ∧ x.toNat ≤ hi.toNat)) ∧
  ∀ (s : State) (k : Fin 16),
    ¬(s.minr.toNat < s.maxr.toNat ∧ s.minr.toNat ≤ s.blk[k].toNat ∧ s.blk[k].toNat ≤ s.maxr.toNat) →
    exec (.quant k) s = .refused (.quantOutsidePrecondition k)

/-- R97: the sample equal to min has wire code 1 and the one equal to max wire code 0, and the example of the rule. That
it holds for all endpoints is the spec's own inference in R97 ("follows from the rules for every denominator
[derived: ...]"). -/
def Obligations.WireCodeBoundaryLaw : Prop :=
  (∀ lo hi : Byte, lo.toNat < hi.toNat → quantize lo lo hi = some 1 ∧ quantize hi lo hi = some 0) ∧
  (∀ x : Byte, 10 ≤ x.toNat ∧ x.toNat ≤ 12 → quantize x 10 50 = some 1) ∧
  ∀ x : Byte, 48 ≤ x.toNat ∧ x.toNat ≤ 50 → quantize x 10 50 = some 0

/-- R96: the remap, and that it is a bijection of the eight indices and the eight codes. -/
def Obligations.WireCodeRemapIsBijective : Prop :=
  wireCode 7 = 0 ∧ wireCode 0 = 1 ∧ (∀ r : Nat, 1 ≤ r → r ≤ 6 → (wireCode r).toNat = 8 - r) ∧
  ∀ c : BitVec 3, ∃ r : Nat, r ≤ 7 ∧ wireCode r = c ∧ ∀ r' : Nat, r' ≤ 7 → wireCode r' = c → r' = r

/-- R93, R98: over the whole domain of the quantizer every intermediate value fits the width R98 gives it. -/
def Obligations.QuantizerValuesFit : Prop :=
  ∀ n d : Nat, 1 ≤ d → d ≤ 255 → n ≤ d →
    multiplier d * d < 28672 + d ∧ 28672 ≤ multiplier d * d ∧ multiplier d < 2 ^ 15 ∧
    multiplier d * n ≤ 28926 ∧ multiplier d * n + 2048 < 2 ^ 15 ∧ rampIndex n d ≤ 7

/-- R95: up to denominator 64 the fixed-point index is the exact one; it is never below it and at most one above it; at
an exact tie it is the upper index; and it differs at denominator 65, numerator 51. -/
def Obligations.FixedPointAgainstExact : Prop :=
  (∀ n d : Nat, 1 ≤ d → d ≤ 255 → n ≤ d →
    (d ≤ 64 → rampIndex n d = exactIndex n d) ∧ exactIndex n d ≤ rampIndex n d ∧
    rampIndex n d ≤ exactIndex n d + 1 ∧
    ∀ j : Nat, 14 * n = (2 * j + 1) * d → rampIndex n d = j + 1) ∧
  rampIndex 51 65 = 6 ∧ exactIndex 51 65 = 5

/-- R99: two lanes may be issued in either order. -/
def Obligations.LanesCommute : Prop :=
  ∀ (s : State) (j k : Fin 16), quantizeAdmits s.blk[j] s.minr s.maxr = true →
    quantizeAdmits s.blk[k] s.minr s.maxr = true →
    ∃ a b c d, exec (.quant j) s = .next a ∧ exec (.quant k) a = .next b ∧ exec (.quant k) s = .next c ∧
      exec (.quant j) c = .next d ∧ b.code = d.code ∧ ∀ i : Fin 16, i ≠ j → i ≠ k → b.code[i] = s.code[i]

/-! ## PACK and STORE (spec/43_block_packer.md) -/

/-- R105: PACK places max in bits 7:0, min in bits 15:8 and code k in bits 18+3k:16+3k of PACKED. -/
def Obligations.PackPlacesEveryField : Prop :=
  ∀ s : State, ∃ t, exec .pack s = .next t ∧ t.packed.extractLsb' 0 8 = s.maxr ∧
    t.packed.extractLsb' 8 8 = s.minr ∧
    (∀ k : Fin 16, t.packed.extractLsb' (16 + 3 * k.val) 3 = s.code[k]) ∧
    t.upc = 0b1010000#7 ∧ t.blk = s.blk ∧ sameEndpoints s t ∧ t.code = s.code ∧ sameStatus s t ∧ sameDims s t ∧
    samePosition s t ∧ sameSrc s t ∧ sameOut s t ∧ sameSurroundings s t

/-- R106: the 18 fields cover the 64 bits with no gap and no overlap: PACK is a bijection of operands and blocks. -/
def Obligations.PackIsBijective : Prop :=
  (∀ (hi lo hi' lo' : Byte) (c c' : Vector (BitVec 3) 16), pack hi lo c = pack hi' lo' c' →
    hi = hi' ∧ lo = lo' ∧ c = c') ∧
  ∀ v : BitVec 64, ∃ hi lo c, pack hi lo c = v

/-- R107: STORE writes the 8 bytes of PACKED, least significant first, at 8 times the block's slot, and no other byte;
a write that is not admitted raises OutFault and writes none of them (R139). The premise on OUT is part of the machine's
invariant. The platform's own refusals are the model's list (log entry 16), the whole UPC 0 is log entry 5, the code of
two workers log entry 15. -/
def Obligations.StoreWritesItsSlot : Prop :=
  ∀ s : State, Mem.wf s.out = true →
    s.slotOffset = 8 * (2 * (s.trow * ((s.width + 3) / 4) + s.tcol) + s.ch.val) ∧
    ((s.slotOffset + 8 ≤ s.params.outCap ∧ s.slotOffset ∉ s.params.outRefused) →
      ∃ t, exec .store s = .next t ∧
        (∀ i : Nat, i < 8 → Mem.read t.out (s.slotOffset + i) = s.packed.extractLsb' (8 * i) 8) ∧
        (∀ a : Nat, a < s.slotOffset ∨ s.slotOffset + 8 ≤ a → Mem.read t.out a = Mem.read s.out a) ∧
        t.upc = 0b1100000#7 ∧ sameStatus s t ∧ sameDims s t ∧ samePosition s t ∧ sameDatapath s t ∧
        sameSrc s t ∧ sameSurroundings s t) ∧
    ((s.params.outCap < s.slotOffset + 8 ∨ s.slotOffset ∈ s.params.outRefused) →
      ∃ t, exec .store s = .next t ∧ t.jobState = .error ∧ t.upc = 0 ∧ faultFrame s t ∧
        (t.err = .out ∨ (t.err = .src ∧ 1 < s.params.workers ∧
          ∃ b ∈ blocks s.image, ∃ k : Fin 16, s.params.srcLen ≤ s.image.sampleOffset b.1 b.2.1 b.2.2 k)))

/-- R107, R139: in a job that passed START's checks, on a platform that refuses nothing of its own, STORE never raises
OutFault. -/
def Obligations.StoreOfAJobIsAdmitted : Prop :=
  ∀ s : State, Inv s → s.jobState = .busy → s.upc = upcStore → s.params.outRefused = [] →
    ∃ t, exec .store s = .next t ∧ t.jobState = .busy ∧ t.upc = upcNext

/-! ## NEXT, START, RESET (spec/44_block_encoder.md) -/

/-- R116: NEXT goes to the other channel, the next tile column, the next tile row, or to DONE. That the last NEXT keeps
the position is the model's choice of log entry 23, the whole UPC 0 of log entry 5. -/
def Obligations.NextAdvancesThePosition : Prop :=
  ∀ s : State, ∃ t, exec .next s = .next t ∧
    (s.ch = 0 → t.trow = s.trow ∧ t.tcol = s.tcol ∧ t.ch = 1 ∧ t.upc = 0b0010000#7 ∧ sameStatus s t) ∧
    (s.ch = 1 → s.tcol + 1 < (s.width + 3) / 4 →
      t.trow = s.trow ∧ t.tcol = s.tcol + 1 ∧ t.ch = 0 ∧ t.upc = 0b0010000#7 ∧ sameStatus s t) ∧
    (s.ch = 1 → (s.width + 3) / 4 ≤ s.tcol + 1 → s.trow + 1 < (s.height + 3) / 4 →
      t.trow = s.trow + 1 ∧ t.tcol = 0 ∧ t.ch = 0 ∧ t.upc = 0b0010000#7 ∧ sameStatus s t) ∧
    (s.ch = 1 → (s.width + 3) / 4 ≤ s.tcol + 1 → (s.height + 3) / 4 ≤ s.trow + 1 →
      t.jobState = .done ∧ t.err = s.err ∧ t.upc = 0 ∧ samePosition s t) ∧
    sameDims s t ∧ sameDatapath s t ∧ sameSrc s t ∧ sameOut s t ∧ sameSurroundings s t

/-- R118: what START does in every state, its checks in order; it touches neither memory nor the datapath. The whole UPC
0 of the two faults is the model's choice of log entry 5 (R142 writes UPC.OP). -/
def Obligations.StartDecides : Prop :=
  ∀ s : State, ∃ t, exec .start s = .next t ∧
    (s.jobState = .busy ∨ s.jobState = .error → t = s) ∧
    (s.jobState = .idle ∨ s.jobState = .done →
      (s.stride < 4 * s.width → t.jobState = .error ∧ t.err = .cfg ∧ t.upc = 0) ∧
      (4 * s.width ≤ s.stride → s.params.outCap < (s.width + 3) / 4 * ((s.height + 3) / 4) * 16 →
        t.jobState = .error ∧ t.err = .alloc ∧ t.upc = 0) ∧
      (4 * s.width ≤ s.stride → s.width = 0 ∨ s.height = 0 →
        t.jobState = .done ∧ t.err = s.err ∧ t.upc = s.upc ∧ samePosition s t) ∧
      (4 * s.width ≤ s.stride → 1 ≤ s.width → 1 ≤ s.height →
        (s.width + 3) / 4 * ((s.height + 3) / 4) * 16 ≤ s.params.outCap →
        t.jobState = .busy ∧ t.err = .none ∧ t.trow = 0 ∧ t.tcol = 0 ∧ t.ch = 0 ∧ t.upc = 0b0010000#7)) ∧
    sameDims s t ∧ sameDatapath s t ∧ sameSrc s t ∧ sameOut s t ∧
    t.params = s.params ∧ t.inbox = s.inbox ∧ t.replies = s.replies

/-- R120: RESET gives the reset state from every state and touches neither memory; and the machine it leaves issues
nothing. The whole UPC 0 is the model's choice of log entry 5 (R24 lists UPC as unspecified), the idle step of log entry
18. -/
def Obligations.ResetGivesTheResetState : Prop :=
  ∀ s : State, ∃ t, exec .reset s = .next t ∧ t.jobState = .idle ∧ t.err = .none ∧ t.width = 0 ∧ t.height = 0 ∧
    t.stride = 0 ∧ t.upc = 0 ∧ t.outLen = 0 ∧ t.statusWord = 0 ∧ sameSrc s t ∧ sameOut s t ∧
    t.params = s.params ∧ t.inbox = s.inbox ∧ t.replies = s.replies ∧
    (t.inbox = [] → step t = .next t)

/-! ## Faults and STATUS (spec/60_exceptions.md, spec/10_state.md) -/

/-- R142: fault entry sets STATE and ERR and stops the sequencer, and does nothing else. The whole UPC 0 is the model's
choice of log entry 5 (R142 writes UPC.OP), the kept position and datapath of log entry 23. -/
def Obligations.FaultEntryDoesNothingElse : Prop :=
  ∀ (s : State) (e : ErrCode), (s.raiseFault e).jobState = .error ∧ (s.raiseFault e).err = e ∧
    (s.raiseFault e).upc = 0 ∧ faultFrame s (s.raiseFault e)

/-- R135, R141: a fault is raised only by START, EXTRACT and STORE, each for its own cause and with its own code; with
several workers ERR is the other worker's code only where the image has a block that raises it (U7, log entry 15): for OUT
a block whose reads are admitted and whose write is not. -/
def Obligations.OnlyTheStatedCausesRaise : Prop :=
  ∀ (i : Instr) (s t : State), exec i s = .next t → s.jobState ≠ .error → t.jobState = .error →
    (i = .start ∧ t.err = .cfg ∧ s.stride < 4 * s.width) ∨
    (i = .start ∧ t.err = .alloc ∧ 4 * s.width ≤ s.stride ∧ s.params.outCap < s.outLen) ∨
    (i = .extract ∧ (∃ k : Fin 16, s.params.srcLen ≤ s.image.sampleOffset s.trow s.tcol s.ch k) ∧
      (t.err = .src ∨ (t.err = .out ∧ 1 < s.params.workers ∧ someOutFault s))) ∨
    (i = .store ∧ (s.params.outCap < s.slotOffset + 8 ∨ s.slotOffset ∈ s.params.outRefused) ∧
      (t.err = .out ∨ (t.err = .src ∧ 1 < s.params.workers ∧
        ∃ b ∈ blocks s.image, ∃ k : Fin 16, s.params.srcLen ≤ s.image.sampleOffset b.1 b.2.1 b.2.2 k)))

/-- R144: in ERROR a step keeps STATUS, or it is the command RESET or the reset input and gives the reset state. The
whole UPC 0 is the model's choice of log entry 5, what the other steps keep beside STATUS of log entry 18. -/
def Obligations.ErrorIsSticky : Prop :=
  ∀ s t : State, s.jobState = .error → step s = .next t →
    (sameStatus s t ∧ samePosition s t ∧ sameDatapath s t ∧ t.upc = s.upc) ∨
    (∃ rest, (s.inbox = ⟨0, .writeReg 0 2⟩ :: rest ∨ s.inbox = ⟨0, .resetInput⟩ :: rest) ∧
      t.jobState = .idle ∧ t.err = .none ∧ t.width = 0 ∧ t.height = 0 ∧ t.stride = 0 ∧ t.upc = 0)

/-- R121: a step changes STATE only as the table of R121 says. -/
def Obligations.StateChangesAreTheTable : Prop :=
  ∀ s t : State, step s = .next t →
    t.jobState = s.jobState ∨
    ((s.jobState = .idle ∨ s.jobState = .done) ∧ (∃ rest, s.inbox = ⟨0, .writeReg 0 1⟩ :: rest) ∧
      ((t.jobState = .busy ∧ 4 * s.width ≤ s.stride ∧ 0 < s.outLen ∧ s.outLen ≤ s.params.outCap) ∨
       (t.jobState = .done ∧ 4 * s.width ≤ s.stride ∧ s.outLen = 0) ∨
       (t.jobState = .error ∧ t.err = .cfg ∧ s.stride < 4 * s.width) ∨
       (t.jobState = .error ∧ t.err = .alloc ∧ 4 * s.width ≤ s.stride ∧ s.params.outCap < s.outLen))) ∨
    (s.jobState = .busy ∧ s.upc = 0b1100000#7 ∧ s.ch = 1 ∧ s.image.tilesX ≤ s.tcol + 1 ∧
      s.image.tilesY ≤ s.trow + 1 ∧ t.jobState = .done) ∨
    (s.jobState = .busy ∧ (s.upc = 0b0010000#7 ∨ s.upc = 0b1010000#7) ∧ t.jobState = .error ∧
      (t.err = .src ∨ t.err = .out) ∧
      (s.params.workers = 1 → (t.err = .src ↔ s.upc = 0b0010000#7))) ∨
    ((∃ rest, s.inbox = ⟨0, .writeReg 0 2⟩ :: rest ∨ s.inbox = ⟨0, .resetInput⟩ :: rest) ∧ t.jobState = .idle)

/-! ## The register port and the host (spec/10_state.md R16 to R21, spec/70_reset_and_hazards.md) -/

/-- R16, R18, R21, R61: what a register read answers, number by number, and all it does: a read of STATUS in DONE or ERROR
ends the time in which the memories are the encoder's (R158, R159; log entry 13), and nothing else of the machine
changes. That numbers from 6 on answer 0 and are not refused is the model's choice of log entry 12. -/
def Obligations.RegisterReads : Prop :=
  ∀ (s : State) (n : Nat) (rest : List HostEvent), s.inbox = ⟨0, .readReg n⟩ :: rest →
    ∃ t v, step s = .next t ∧ t.inbox = rest ∧ t.replies = s.replies ++ [.reg n v] ∧
      v = (if n = 1 then
            (match s.jobState with | .idle => 0 | .busy => 1 | .done => 2 | .error => 3) +
              4 * (match s.err with | .none => 0 | .cfg => 1 | .alloc => 2 | .src => 3 | .out => 4)
          else if n = 2 then s.width else if n = 3 then s.height else if n = 4 then s.stride
          else if n = 5 then (s.width + 3) / 4 * ((s.height + 3) / 4) * 16 else 0) ∧
      t.lease = (if n = 1 ∧ (s.jobState = .done ∨ s.jobState = .error) then false else s.lease) ∧
      t.upc = s.upc ∧ sameStatus s t ∧ sameDims s t ∧ samePosition s t ∧ sameDatapath s t ∧ sameSrc s t ∧
      sameOut s t ∧ t.params = s.params ∧ t.job = s.job ∧ t.earlier = s.earlier ∧ t.free = s.free

/-- R65, R158, R159: a WAIT of the host, when STATE is not BUSY, is over; it has read STATUS, so in DONE or ERROR the time
in which the memories are the encoder's ends with it (log entries 11 and 13), and nothing else of the machine
changes. -/
def Obligations.WaitEnds : Prop :=
  ∀ (s : State) (rest : List HostEvent), s.inbox = ⟨0, .waitJob⟩ :: rest → s.jobState ≠ .busy →
    ∃ t, step s = .next t ∧ t.inbox = rest ∧ t.replies = s.replies ∧
      t.lease = (if s.jobState = .done ∨ s.jobState = .error then false else s.lease) ∧
      t.upc = s.upc ∧ sameStatus s t ∧ sameDims s t ∧ samePosition s t ∧ sameDatapath s t ∧ sameSrc s t ∧
      sameOut s t ∧ t.params = s.params ∧ t.job = s.job ∧ t.earlier = s.earlier ∧ t.free = s.free

/-- R16, R19, R20, R61, R161: what a register write does when its value is no command: WIDTH, HEIGHT and STRIDE take
the low bits, unless BUSY; everything else is ignored. That reserved values of CTRL and numbers from 6 on are carried out
as ignored and not refused is the model's choice of log entry 12. -/
def Obligations.RegisterWrites : Prop :=
  ∀ (s : State) (n v : Nat) (rest : List HostEvent), s.inbox = ⟨0, .writeReg n v⟩ :: rest →
    (n = 0 → v ≠ 1 ∧ v ≠ 2) →
    ∃ t, step s = .next t ∧ t.inbox = rest ∧
      t.width = (if n = 2 ∧ s.jobState ≠ .busy then v % 2 ^ s.params.dimBits else s.width) ∧
      t.height = (if n = 3 ∧ s.jobState ≠ .busy then v % 2 ^ s.params.dimBits else s.height) ∧
      t.stride = (if n = 4 ∧ s.jobState ≠ .busy then v % 2 ^ s.params.strideBits else s.stride) ∧
      t.upc = s.upc ∧ sameStatus s t ∧ samePosition s t ∧ sameDatapath s t ∧ sameSrc s t ∧ sameOut s t ∧
      t.params = s.params ∧ t.replies = s.replies ∧ t.lease = s.lease ∧ t.job = s.job ∧ t.earlier = s.earlier ∧
      t.free = s.free

/-- R40, R41, R119, R159: after the host has read DONE, a read of OUT below the job's length answers the bytes of OUT; a
byte the host wrote there while it was the job's, and not since, is the last one it wrote, if that survived (log entry
13). Two such reads answer the same. The read changes nothing but its answer and the counter of the free values. -/
def Obligations.DoneOutIsReadable : Prop :=
  ∀ (s : State) (off len : Nat) (rest : List HostEvent), s.inbox = ⟨0, .getOut off len⟩ :: rest →
    s.jobState = .done → s.lease = false → off + len ≤ s.job.len → off + len ≤ s.params.outCap →
    ∃ t bytes, step s = .next t ∧ t.inbox = rest ∧ t.replies = s.replies ++ [.out off bytes] ∧ bytes.length = len ∧
      (∀ i : Nat, i < len → bytes.getD i 0 =
        if off + i ∈ s.job.settled then Mem.read s.out (off + i) else levelByte s.job s.out (off + i)) ∧
      (s.job.outPuts = [] → ∀ i : Nat, i < len → bytes.getD i 0 = Mem.read s.out (off + i)) ∧
      step { t with inbox := ⟨0, .getOut off len⟩ :: rest } =
        .next { t with replies := t.replies ++ [.out off bytes], free := t.free + 1 } ∧
      t.upc = s.upc ∧ sameStatus s t ∧ sameDims s t ∧ samePosition s t ∧ sameDatapath s t ∧ sameOut s t ∧
      sameSrc s t ∧ t.params = s.params ∧ t.lease = s.lease ∧ t.job = s.job ∧ t.earlier = s.earlier ∧
      t.free = s.free + 1

/-- R30, R159, R160: every host read of backed bytes of OUT is answered, in every state, and each byte is one OUT may
hold: the content of OUT where no job owns the byte or the host wrote it last; the level in DONE, once the host has read
it; else, for the slots of a job, what OUT held before START, or what the host wrote over it, or the job's block. It
changes nothing but its answer and the counter of the free values. The bytes a job may have stored and the host's own are
log entries 13 and 14. That a job owns no byte or its image's level is part of the machine's invariant. -/
def Obligations.HostReadOfOutIsBounded : Prop :=
  ∀ (s : State) (off len : Nat) (rest : List HostEvent), s.inbox = ⟨0, .getOut off len⟩ :: rest →
    off + len ≤ s.params.outCap →
    ∃ t bytes, step s = .next t ∧ t.inbox = rest ∧ t.replies = s.replies ++ [.out off bytes] ∧ bytes.length = len ∧
      ((∀ j ∈ s.job :: s.earlier, j.sized) → ∀ i : Nat, i < len → mayHold (off + i) (bytes.getD i 0) s.out
        ({ s.job with completed := decide (s.jobState = .done ∧ s.lease = false) } :: s.earlier)) ∧
      t.upc = s.upc ∧ sameStatus s t ∧ sameDims s t ∧ samePosition s t ∧ sameDatapath s t ∧ sameOut s t ∧
      sameSrc s t ∧ t.params = s.params ∧ t.lease = s.lease ∧ t.job = s.job ∧ t.earlier = s.earlier ∧
      t.free = s.free + 1

/-- R143, R159, R160: in BUSY, ERROR and IDLE, and in DONE before the host has read it, a read that takes in a whole slot
of the job answers the 8 bytes OUT held there before START or the 8 bytes of the job's block. The premises say that no
START before it opened a job and that the host has written neither memory since START. The job's block of a slot that is
not stored yet, and one choice for a slot, are the model's choice of log entry 14. -/
def Obligations.SlotReadsOldOrNew : Prop :=
  ∀ (s : State) (off len : Nat) (rest : List HostEvent), s.inbox = ⟨0, .getOut off len⟩ :: rest →
    off + len ≤ s.params.outCap → ¬(s.jobState = .done ∧ s.lease = false) → (∀ j ∈ s.earlier, j.len = 0) → s.job.srcPuts = [] →
    s.job.outPuts = [] → s.job.settled = [] → s.job.len = s.job.image.outLen →
    ∃ t bytes, step s = .next t ∧ t.replies = s.replies ++ [.out off bytes] ∧ bytes.length = len ∧
      ∀ (r c : Nat) (ch : Fin 2), r < s.job.image.tilesY → c < s.job.image.tilesX →
        off ≤ 8 * s.job.image.slot r c ch → 8 * s.job.image.slot r c ch + 8 ≤ off + len →
        (∀ i : Nat, i < 8 → bytes.getD (8 * s.job.image.slot r c ch + i - off) 0 =
          Mem.read s.job.before (8 * s.job.image.slot r c ch + i)) ∨
        ∀ i : Nat, i < 8 → bytes.getD (8 * s.job.image.slot r c ch + i - off) 0 =
          (encodeBlock s.job.image r c ch).extractLsb' (8 * i) 8

/-- R30, R65, R158: a put of backed bytes into SRC stores exactly these bytes, in every state; while a job runs, the bytes
are also kept as ones the job may read (log entry 13). Nothing else of the machine changes. The premise on SRC is part of
the machine's invariant. -/
def Obligations.HostPutIntoSource : Prop :=
  ∀ (s : State) (off : Nat) (bytes : List Byte) (rest : List HostEvent), Mem.wf s.src = true →
    s.inbox = ⟨0, .putSrc off bytes⟩ :: rest → off + bytes.length ≤ s.params.srcLen →
    ∃ t, step s = .next t ∧ t.inbox = rest ∧ Mem.wf t.src = true ∧
      (∀ a : Nat, Mem.read t.src a =
        if off ≤ a ∧ a < off + bytes.length then bytes.getD (a - off) 0 else Mem.read s.src a) ∧
      (∀ (a : Nat) (v : Byte), (a, v) ∈ t.job.srcPuts ↔
        (a, v) ∈ s.job.srcPuts ∨ (s.jobState = .busy ∧ ∃ i : Nat, bytes[i]? = some v ∧ a = off + i)) ∧
      t.job = { s.job with srcPuts := t.job.srcPuts } ∧ t.earlier = s.earlier ∧ t.free = s.free ∧
      t.upc = s.upc ∧ sameStatus s t ∧ sameDims s t ∧ samePosition s t ∧ sameDatapath s t ∧ sameOut s t ∧
      t.params = s.params ∧ t.replies = s.replies ∧ t.lease = s.lease

/-- R30, R119, R159: a host write of backed bytes of OUT. The bytes that are the host's, all of them unless a job is out
and not yet read as ended, and then those at and above the job's length, are stored exactly; those that are the job's do
not change its content and are kept, in the place of any kept before, as ones that survive or are overwritten (log entry
13). Nothing else of the machine changes but the counter of the free values. The premise on OUT is part of the machine's
invariant. -/
def Obligations.HostPutIntoOut : Prop :=
  ∀ (s : State) (off : Nat) (bytes : List Byte) (rest : List HostEvent), Mem.wf s.out = true →
    s.inbox = ⟨0, .putOut off bytes⟩ :: rest → off + bytes.length ≤ s.params.outCap →
    ∃ t, step s = .next t ∧ t.inbox = rest ∧ Mem.wf t.out = true ∧
      (∀ a : Nat, Mem.read t.out a =
        if off ≤ a ∧ a < off + bytes.length ∧ ¬(s.lease = true ∧ a < s.job.len) then bytes.getD (a - off) 0
        else Mem.read s.out a) ∧
      (∀ a : Nat, off ≤ a ∧ a < off + bytes.length ∧ s.lease = true ∧ a < s.job.len →
        ∃ c, t.job.putAt a = some ⟨a, bytes.getD (a - off) 0, c⟩) ∧
      (∀ a : Nat, ¬(off ≤ a ∧ a < off + bytes.length ∧ s.lease = true ∧ a < s.job.len) →
        t.job.putAt a = s.job.putAt a) ∧
      (∀ a : Nat, a ∈ t.job.settled ↔
        a ∈ s.job.settled ∨ (off ≤ a ∧ a < off + bytes.length ∧ ¬(s.lease = true ∧ a < s.job.len))) ∧
      t.job = { s.job with outPuts := t.job.outPuts, settled := t.job.settled } ∧ t.earlier = s.earlier ∧
      t.free = s.free + 1 ∧
      t.upc = s.upc ∧ sameStatus s t ∧ sameDims s t ∧ samePosition s t ∧ sameDatapath s t ∧ sameSrc s t ∧
      t.params = s.params ∧ t.replies = s.replies ∧ t.lease = s.lease

/-- R158, R159: whatever the host puts into SRC or OUT during a job, the put completes: a BUSY machine of the invariant
with a put pending, of any length, answers a next state that is BUSY at the same micro-operation and meets the invariant.
That such a put is carried out and not refused, as U3 proposes for a model, is the model's choice of log entry 13. -/
def Obligations.HostPutsDoNotStopTheJob : Prop :=
  ∀ (s : State) (off : Nat) (bytes : List Byte) (rest : List HostEvent), Inv s → s.jobState = .busy →
    (s.inbox = ⟨0, .putSrc off bytes⟩ :: rest ∧ off + bytes.length ≤ s.params.srcLen) ∨
      (s.inbox = ⟨0, .putOut off bytes⟩ :: rest ∧ off + bytes.length ≤ s.params.outCap) →
    ∃ t, step s = .next t ∧ Inv t ∧ t.jobState = .busy ∧ t.upc = s.upc ∧ samePosition s t

/-- R155: the state at reset; the reset input gives the same from every state and leaves SRC and OUT; and with no host
access the machine does nothing. The whole UPC 0 is the model's choice of log entry 5, the idle step of log entry 18, the
reset input as one event without duration of log entry 25. -/
def Obligations.ResetInputAndValues : Prop :=
  (State.reset.statusWord = 0 ∧ State.reset.width = 0 ∧ State.reset.height = 0 ∧ State.reset.stride = 0 ∧
    State.reset.outLen = 0 ∧ State.reset.upc = 0 ∧ step State.reset = .next State.reset) ∧
  ∀ (s : State) (rest : List HostEvent), s.inbox = ⟨0, .resetInput⟩ :: rest →
    ∃ t, step s = .next t ∧ exec .reset { s with inbox := rest } = .next t ∧ t.statusWord = 0 ∧ t.width = 0 ∧
      t.height = 0 ∧ t.stride = 0 ∧ t.outLen = 0 ∧ t.upc = 0 ∧ sameSrc s t ∧ sameOut s t ∧ t.inbox = rest

/-! ## Invariants -/

/-- The invariant of the machine holds at reset. -/
def Obligations.InvariantAtReset : Prop := Inv State.reset

/-- Every step keeps the invariant of the machine: both memories stay in canonical form, the registers fit their
widths, ERR is NONE outside ERROR, the sequencer is stopped outside BUSY, and while BUSY the position is a tile of the
image and the endpoints are ready when QUANT and PACK read them; every job kept owns no byte of OUT or its image's
level. -/
def Obligations.InvariantKeptByEveryStep : Prop := ∀ s t : State, Inv s → step s = .next t → Inv t

/-- R101, R124, R157: a BUSY machine that meets the invariant always has a step, whatever its data. -/
def Obligations.BusyMachineAlwaysMoves : Prop :=
  ∀ s : State, Inv s → s.jobState = .busy →
    ∃ i t, decodeUpc s.upc = .ok i ∧ exec i s = .next t ∧ (s.inbox = [] → step s = .next t)

/-- R25: no step writes a parameter. -/
def Obligations.ParametersAreNeverWritten : Prop := ∀ s t : State, step s = .next t → t.params = s.params

/-- R22: the encoder never writes SRC: a step changes SRC only when the host puts bytes there. -/
def Obligations.EncoderNeverWritesSource : Prop :=
  ∀ s t : State, step s = .next t → t.src ≠ s.src → ∃ off bytes rest, s.inbox = ⟨0, .putSrc off bytes⟩ :: rest

/-- R22, R34, R160: the encoder writes OUT only in STORE, only the 8 bytes of the block's slot, and in a running job
only below OUT_LEN; any other change of OUT is the host's. -/
def Obligations.EncoderWritesOnlyItsSlot : Prop :=
  ∀ s t : State, Inv s → step s = .next t → t.out ≠ s.out →
    (∃ off bytes rest, s.inbox = ⟨0, .putOut off bytes⟩ :: rest) ∨
    (s.jobState = .busy ∧ s.upc = 0b1010000#7 ∧ s.slotOffset + 8 ≤ s.outLen ∧
      ∀ a : Nat, a < s.slotOffset ∨ s.slotOffset + 8 ≤ a → Mem.read t.out a = Mem.read s.out a)

/-! ## The whole job (spec/44_block_encoder.md) -/

/-- R34, R108, R125: in the order of R115 the blocks of an image go to the slots 0, 1, 2, ..., each once, and the slots
fill OUT_LEN bytes. -/
def Obligations.SlotsAreFilledOnceEach : Prop :=
  ∀ img : Image,
    ((blocks img).map fun b => img.slot b.1 b.2.1 b.2.2) = List.range (2 * (img.tilesX * img.tilesY)) ∧
    8 * (blocks img).length = img.outLen ∧ img.outLen = (img.width + 3) / 4 * ((img.height + 3) / 4) * 16

/-- R34, R56, R125: in an encoded level every block stands in its slot, least significant byte first, and no byte at or
above OUT_LEN is written. -/
def Obligations.LevelHoldsEveryBlock : Prop :=
  ∀ (img : Image) (m : Mem), Mem.wf m = true →
    (∀ (r c : Nat) (ch : Fin 2) (i : Nat), r < img.tilesY → c < img.tilesX → i < 8 →
      Mem.read (encodeLevel img m) (8 * (2 * (r * img.tilesX + c) + ch.val) + i) =
        (encodeBlock img r c ch).extractLsb' (8 * i) 8) ∧
    ∀ a : Nat, img.outLen ≤ a → Mem.read (encodeLevel img m) a = Mem.read m a

/-- R63: what a block can be: max above min; both endpoint codes occur unless the samples are all equal, and then every
code is the one of R82. -/
def Obligations.ProducibleBlocks : Prop :=
  ∀ (img : Image) (r c : Nat) (ch : Fin 2),
    ((encodeBlock img r c ch).extractLsb' 8 8).toNat < ((encodeBlock img r c ch).extractLsb' 0 8).toNat ∧
    ((∃ j k : Fin 16, (extract img r c ch)[j] ≠ (extract img r c ch)[k]) →
      (∃ k : Fin 16, (encodeBlock img r c ch).extractLsb' (16 + 3 * k.val) 3 = 1) ∧
      ∃ k : Fin 16, (encodeBlock img r c ch).extractLsb' (16 + 3 * k.val) 3 = 0) ∧
    ∀ v : Byte, (∀ k : Fin 16, (extract img r c ch)[k] = v) →
      ∀ k : Fin 16, (encodeBlock img r c ch).extractLsb' (16 + 3 * k.val) 3 = if v = 255 then 0 else 1

/-- R122: encoding the blocks in any order gives the same OUT. -/
def Obligations.BlockOrderIsImmaterial : Prop :=
  ∀ (img : Image) (m : Mem) (l : List (Nat × Nat × Fin 2)), Mem.wf m = true → l.Perm (blocks img) →
    l.foldl (storeBlock img) m = encodeLevel img m

/-- R115, R124: a job that passes START's checks and whose accesses the platform admits, with nothing of the host
pending: START and exactly 42 steps a tile reach DONE, the machine BUSY until then, and OUT is the level the loop of R115
computes. One step a micro-operation is the model's choice of log entry 22. -/
def Obligations.JobReachesDone : Prop :=
  ∀ s : State, LegalLaunch s → s.inbox = [] →
    ∃ u t, exec .start s = .next u ∧ runSteps (jobSteps s) u = .next t ∧
      (∀ n : Nat, n < jobSteps s → ∃ v, runSteps n u = .next v ∧ v.jobState = .busy) ∧
      t.jobState = .done ∧ t.err = .none ∧ t.out = encodeLevel s.image s.out ∧ t.src = s.src ∧ sameDims s t

/-- R66, R121, R124: the same job as the host runs it, by writing START to CTRL, waiting and reading STATUS: the write, 42
steps a tile, the wait and the read, and the host has read DONE; what it has pending after that is still pending. One step
a micro-operation and an access is the model's choice of log entries 11 and 22. -/
def Obligations.HostRunsTheJob : Prop :=
  ∀ (s : State) (rest : List HostEvent), LegalLaunch s →
    ∃ t, runSteps (jobSteps s + 3) (launchByHost s rest) = .next t ∧ t.inbox = rest ∧
      t.replies = s.replies ++ [.reg 1 2] ∧ t.jobState = .done ∧ t.err = .none ∧ t.lease = false ∧
      t.job.len = s.outLen ∧ t.out = encodeLevel s.image s.out ∧ t.src = s.src ∧ sameDims s t ∧
      (∀ n : Nat, 1 ≤ n → n ≤ jobSteps s →
        ∃ v, runSteps n (launchByHost s rest) = .next v ∧ v.jobState = .busy)

/-- R123: the level depends only on WIDTH, HEIGHT, STRIDE, CH_BYTE and the SRC bytes of R33: two launches that agree on
these leave the same bytes below OUT_LEN, whatever else differs: earlier jobs, OUT, other bytes of SRC, the lengths the
platform backs. WORKERS may differ too, but the model issues the blocks in the reference order whatever it is (log
entry 15). -/
def Obligations.LevelDependsOnlyOnTheImage : Prop :=
  ∀ s s' : State, LegalLaunch s → LegalLaunch s' → s.inbox = [] → s'.inbox = [] → Mem.wf s.out = true →
    Mem.wf s'.out = true → sameDims s s' → s'.params.chByte0 = s.params.chByte0 →
    s'.params.chByte1 = s.params.chByte1 →
    (∀ a : Nat, s.image.reads a = true → Mem.read s'.src a = Mem.read s.src a) →
    ∃ u u' t t', exec .start s = .next u ∧ exec .start s' = .next u' ∧
      runSteps (jobSteps s) u = .next t ∧ runSteps (jobSteps s) u' = .next t' ∧
      t.jobState = .done ∧ t'.jobState = .done ∧
      ∀ a : Nat, a < s.outLen → Mem.read t'.out a = Mem.read t.out a

/-- R123 for launches the host makes through the register port: START, WAIT, a read of STATUS, and anything after. That
WORKERS does not matter rests on log entry 15, the count of steps on log entries 11 and 22. -/
def Obligations.HostLevelDependsOnlyOnTheImage : Prop :=
  ∀ (s s' : State) (rest rest' : List HostEvent), LegalLaunch s → LegalLaunch s' → Mem.wf s.out = true →
    Mem.wf s'.out = true → sameDims s s' → s'.params.chByte0 = s.params.chByte0 →
    s'.params.chByte1 = s.params.chByte1 →
    (∀ a : Nat, s.image.reads a = true → Mem.read s'.src a = Mem.read s.src a) →
    ∃ t t', runSteps (jobSteps s + 3) (launchByHost s rest) = .next t ∧
      runSteps (jobSteps s + 3) (launchByHost s' rest') = .next t' ∧ t.jobState = .done ∧ t'.jobState = .done ∧
      ∀ a : Nat, a < s.outLen → Mem.read t'.out a = Mem.read t.out a

/-- R138, R139, R141, R143: a job some access of which the platform does not admit ends in ERROR, within 42 steps a tile:
with the code SRC where no block raises OutFault, OUT where no read is refused, else one of the two. The count of steps is
the model's choice of log entry 22, the list of refused offsets of log entry 16, the code with several workers of log
entry 15. -/
def Obligations.RefusedAccessEndsInError : Prop :=
  ∀ s : State, Accepted s → s.inbox = [] → someReadRefused s ∨ someWriteRefused s →
    ∃ u n t, exec .start s = .next u ∧ n ≤ jobSteps s ∧ runSteps n u = .next t ∧ t.jobState = .error ∧
      (¬ someOutFault s → t.err = .src) ∧ (¬ someReadRefused s → t.err = .out) ∧
      (t.err = .src ∨ t.err = .out) ∧ sameDims s t ∧ sameSrc s t

/-- R126, R143: at every point of a job, and after a fault in it, each slot of OUT holds what it held before START or the
job's block, and every byte at or above OUT_LEN what it held. -/
def Obligations.EachSlotIsOldOrNew : Prop :=
  ∀ s : State, Accepted s → s.inbox = [] → Mem.wf s.out = true →
    ∃ u, exec .start s = .next u ∧ ∀ (n : Nat), ∃ v, runSteps n u = .next v ∧
      (∀ (r c : Nat) (ch : Fin 2), r < s.image.tilesY → c < s.image.tilesX →
        (∀ i : Nat, i < 8 → Mem.read v.out (8 * s.image.slot r c ch + i) =
          Mem.read s.out (8 * s.image.slot r c ch + i)) ∨
        ∀ i : Nat, i < 8 → Mem.read v.out (8 * s.image.slot r c ch + i) =
          (encodeBlock s.image r c ch).extractLsb' (8 * i) 8) ∧
      ∀ a : Nat, s.outLen ≤ a → Mem.read v.out a = Mem.read s.out a
end

