-- ==== Sys2Proof/Laws/Memory.lean ====
section
/-! SUPPORT. The laws of memory: every operation keeps the canonical form, a read after a write, and equal contents are
equal data. -/

namespace Sys2Proof.Laws

open Sys2Proof.Machine

@[simp] theorem read_nil (a : Nat) : Mem.read [] a = Mem.unlisted := rfl

theorem read_cons (c : Host.Cell) (m : Mem) (a : Nat) :
    Mem.read (c :: m) a = if a = c.1 then c.2 else Mem.read m a := rfl

@[simp] theorem wf_nil : Mem.wf [] = true := rfl

theorem wf_cons (c : Host.Cell) (m : Mem) :
    Mem.wf (c :: m) = true ↔ c.2 ≠ Mem.unlisted ∧ (∀ d ∈ m, c.1 < d.1) ∧ Mem.wf m = true := by
  simp [Mem.wf, and_assoc]

theorem write_cons (c : Host.Cell) (m : Mem) (a : Nat) (v : Byte) :
    Mem.write (c :: m) a v =
      if a < c.1 then if v = Mem.unlisted then c :: m else (a, v) :: c :: m
      else if a = c.1 then if v = Mem.unlisted then m else (a, v) :: m
      else c :: Mem.write m a v := rfl

/-- An offset below every entry is unlisted. -/
theorem read_of_below {m : Mem} {a : Nat} (h : ∀ d ∈ m, a < d.1) : Mem.read m a = Mem.unlisted := by
  induction m with
  | nil => rfl
  | cons c m ih =>
    have hc := h c (by simp)
    rw [read_cons, if_neg (by omega)]
    exact ih fun d hd => h d (by simp [hd])

/-- A write lists no offset but its own and those listed before. -/
theorem mem_write {m : Mem} {a : Nat} {v : Byte} {d : Host.Cell} (h : d ∈ Mem.write m a v) :
    d ∈ m ∨ d = (a, v) := by
  induction m with
  | nil => simp only [Mem.write] at h; split at h <;> simp_all
  | cons c m ih =>
    rw [write_cons] at h
    split at h
    · split at h
      · exact .inl h
      · rcases List.mem_cons.1 h with h | h
        · exact .inr h
        · exact .inl h
    · split at h
      · split at h
        · exact .inl (List.mem_cons_of_mem _ h)
        · rcases List.mem_cons.1 h with h | h
          · exact .inr h
          · exact .inl (List.mem_cons_of_mem _ h)
      · rcases List.mem_cons.1 h with h | h
        · exact .inl (by simp [h])
        · exact (ih h).imp_left (List.mem_cons_of_mem _)

theorem wf_write {m : Mem} (h : Mem.wf m = true) (a : Nat) (v : Byte) : Mem.wf (Mem.write m a v) = true := by
  induction m with
  | nil =>
    simp only [Mem.write]
    split
    · rfl
    · exact (wf_cons _ _).2 ⟨‹_›, by simp, rfl⟩
  | cons c m ih =>
    obtain ⟨hv, hlt, hm⟩ := (wf_cons _ _).1 h
    rw [write_cons]
    split
    · next hac =>
      split
      · exact h
      · refine (wf_cons _ _).2 ⟨‹_›, fun d hd => ?_, h⟩
        rcases List.mem_cons.1 hd with rfl | hd
        · exact hac
        · exact hac.trans (hlt d hd)
    · split
      · next hac =>
        split
        · exact hm
        · exact (wf_cons _ _).2 ⟨‹_›, fun d hd => hac ▸ hlt d hd, hm⟩
      · refine (wf_cons _ _).2 ⟨hv, fun d hd => ?_, ih hm⟩
        rcases mem_write hd with hd | rfl
        · exact hlt d hd
        · show c.1 < a
          omega

theorem read_write_same {m : Mem} (h : Mem.wf m = true) (a : Nat) (v : Byte) :
    Mem.read (Mem.write m a v) a = v := by
  induction m with
  | nil => simp only [Mem.write]; split <;> simp_all [read_cons]
  | cons c m ih =>
    obtain ⟨-, hlt, hm⟩ := (wf_cons _ _).1 h
    rw [write_cons]
    split
    · next hac =>
      split
      · next hv =>
        rw [hv]
        refine read_of_below fun d hd => ?_
        rcases List.mem_cons.1 hd with rfl | hd
        · exact hac
        · exact hac.trans (hlt d hd)
      · simp [read_cons]
    · split
      · next hac =>
        split
        · next hv => rw [hv]; exact read_of_below fun d hd => hac ▸ hlt d hd
        · simp [read_cons]
      · next hac => rw [read_cons, if_neg hac]; exact ih hm

theorem read_write_ne {m : Mem} (a : Nat) (v : Byte) {x : Nat} (hx : x ≠ a) :
    Mem.read (Mem.write m a v) x = Mem.read m x := by
  induction m with
  | nil => simp only [Mem.write]; split <;> simp [read_cons, hx]
  | cons c m ih =>
    rw [write_cons]
    split
    · split
      · rfl
      · rw [read_cons, if_neg hx]
    · split
      · next hac => split <;> simp [read_cons, hx, ← hac]
      · rw [read_cons, read_cons, ih]

theorem read_write {m : Mem} (h : Mem.wf m = true) (a : Nat) (v : Byte) (x : Nat) :
    Mem.read (Mem.write m a v) x = if x = a then v else Mem.read m x := by
  split
  · next hx => rw [hx, read_write_same h]
  · next hx => rw [read_write_ne a v hx]

theorem wf_writeBytes {m : Mem} (h : Mem.wf m = true) (a : Nat) (vs : List Byte) :
    Mem.wf (Mem.writeBytes m a vs) = true := by
  induction vs generalizing m a with
  | nil => exact h
  | cons v vs ih => exact ih (wf_write h a v) (a + 1)

/-- Everything a write of several bytes does. -/
theorem read_writeBytes {m : Mem} (h : Mem.wf m = true) (a : Nat) (vs : List Byte) (x : Nat) :
    Mem.read (Mem.writeBytes m a vs) x =
      if a ≤ x ∧ x < a + vs.length then vs.getD (x - a) 0 else Mem.read m x := by
  induction vs generalizing m a with
  | nil => rw [if_neg (by simp)]; rfl
  | cons v vs ih =>
    rw [Mem.writeBytes, ih (wf_write h a v), read_write h]
    rcases lt_trichotomy x a with hx | rfl | hx
    · rw [if_neg (by omega), if_neg (by omega), if_neg (by omega)]
    · simp
    · obtain ⟨n, rfl⟩ : ∃ n, x = a + 1 + n := ⟨x - (a + 1), by omega⟩
      have e1 : a + 1 + n - (a + 1) = n := by omega
      have e2 : a + 1 + n - a = n + 1 := by omega
      rw [e1, e2, List.getD_cons_succ, if_neg (show a + 1 + n ≠ a by omega), List.length_cons]
      split <;> split <;> first | rfl | omega

theorem read_writeBytes_outside {m : Mem} (a : Nat) (vs : List Byte) {x : Nat}
    (hx : x < a ∨ a + vs.length ≤ x) : Mem.read (Mem.writeBytes m a vs) x = Mem.read m x := by
  induction vs generalizing m a with
  | nil => rfl
  | cons v vs ih =>
    simp only [List.length_cons] at hx
    rw [Mem.writeBytes, ih (a + 1) (by omega), read_write_ne a v (by omega)]

@[simp] theorem length_bytesLE (v : BitVec 64) : (bytesLE v).length = 8 := rfl

theorem getD_bytesLE (v : BitVec 64) {i : Nat} (hi : i < 8) :
    (bytesLE v).getD i 0 = v.extractLsb' (8 * i) 8 := by
  simp [bytesLE, hi]

theorem wf_write64 {m : Mem} (h : Mem.wf m = true) (a : Nat) (v : BitVec 64) :
    Mem.wf (Mem.write64 m a v) = true := wf_writeBytes h a _

theorem read_write64_inside {m : Mem} (h : Mem.wf m = true) (a : Nat) (v : BitVec 64) {i : Nat} (hi : i < 8) :
    Mem.read (Mem.write64 m a v) (a + i) = v.extractLsb' (8 * i) 8 := by
  rw [Mem.write64, read_writeBytes h, if_pos (by simp [hi]), Nat.add_sub_cancel_left, getD_bytesLE v hi]

theorem read_write64_outside {m : Mem} (a : Nat) (v : BitVec 64) {x : Nat} (hx : x < a ∨ a + 8 ≤ x) :
    Mem.read (Mem.write64 m a v) x = Mem.read m x := read_writeBytes_outside a _ (by simpa using hx)

/-- Memories in canonical form with equal contents are equal data. -/
theorem ext_of_read {m m' : Mem} (h : Mem.wf m = true) (h' : Mem.wf m' = true)
    (e : ∀ a, Mem.read m a = Mem.read m' a) : m = m' := by
  induction m generalizing m' with
  | nil =>
    cases m' with
    | nil => rfl
    | cons c m' =>
      have := e c.1
      exact absurd (by simpa [read_cons] using this.symm) ((wf_cons _ _).1 h').1
  | cons c m ih =>
    obtain ⟨hv, hlt, hm⟩ := (wf_cons _ _).1 h
    cases m' with
    | nil =>
      have := e c.1
      exact absurd (by simpa [read_cons] using this) hv
    | cons d m' =>
      obtain ⟨hv', hlt', hm'⟩ := (wf_cons _ _).1 h'
      have ec := e c.1
      have ed := e d.1
      have hcd : c.1 = d.1 := by
        rcases lt_trichotomy c.1 d.1 with hl | he | hg
        · rw [read_cons, if_pos rfl, read_of_below (m := d :: m')] at ec
          · exact absurd ec hv
          · intro x hx
            rcases List.mem_cons.1 hx with rfl | hx
            · exact hl
            · exact hl.trans (hlt' x hx)
        · exact he
        · rw [read_cons d, if_pos rfl, read_of_below (m := c :: m)] at ed
          · exact absurd ed.symm hv'
          · intro x hx
            rcases List.mem_cons.1 hx with rfl | hx
            · exact hg
            · exact hg.trans (hlt x hx)
      have hval : c.2 = d.2 := by simpa [read_cons, hcd] using ec
      have htail : ∀ a, Mem.read m a = Mem.read m' a := by
        intro a
        by_cases ha : a = c.1
        · rw [ha, read_of_below hlt, hcd, read_of_below hlt']
        · have := e a
          rwa [read_cons, read_cons, if_neg ha, if_neg (hcd ▸ ha)] at this
      rw [ih hm hm' htail, Prod.ext hcd hval]

end Sys2Proof.Laws
end

