-- ==== Sys2Proof/Laws/State.lean ====
section
/-! SUPPORT. One lemma per field per named update of the state, so that no proof unfolds a record update. -/

namespace Sys2Proof.Laws

open Sys2Proof.Machine

/-! ### setUpc -/

@[simp] theorem setUpc_jobState (s : State) (u : BitVec 7) : (s.setUpc u).jobState = s.jobState := rfl
@[simp] theorem setUpc_err (s : State) (u : BitVec 7) : (s.setUpc u).err = s.err := rfl
@[simp] theorem setUpc_width (s : State) (u : BitVec 7) : (s.setUpc u).width = s.width := rfl
@[simp] theorem setUpc_height (s : State) (u : BitVec 7) : (s.setUpc u).height = s.height := rfl
@[simp] theorem setUpc_stride (s : State) (u : BitVec 7) : (s.setUpc u).stride = s.stride := rfl
@[simp] theorem setUpc_trow (s : State) (u : BitVec 7) : (s.setUpc u).trow = s.trow := rfl
@[simp] theorem setUpc_tcol (s : State) (u : BitVec 7) : (s.setUpc u).tcol = s.tcol := rfl
@[simp] theorem setUpc_ch (s : State) (u : BitVec 7) : (s.setUpc u).ch = s.ch := rfl
@[simp] theorem setUpc_upc (s : State) (u : BitVec 7) : (s.setUpc u).upc = u := rfl
@[simp] theorem setUpc_blk (s : State) (u : BitVec 7) : (s.setUpc u).blk = s.blk := rfl
@[simp] theorem setUpc_minr (s : State) (u : BitVec 7) : (s.setUpc u).minr = s.minr := rfl
@[simp] theorem setUpc_maxr (s : State) (u : BitVec 7) : (s.setUpc u).maxr = s.maxr := rfl
@[simp] theorem setUpc_den (s : State) (u : BitVec 7) : (s.setUpc u).den = s.den := rfl
@[simp] theorem setUpc_mult (s : State) (u : BitVec 7) : (s.setUpc u).mult = s.mult := rfl
@[simp] theorem setUpc_code (s : State) (u : BitVec 7) : (s.setUpc u).code = s.code := rfl
@[simp] theorem setUpc_packed (s : State) (u : BitVec 7) : (s.setUpc u).packed = s.packed := rfl
@[simp] theorem setUpc_src (s : State) (u : BitVec 7) : (s.setUpc u).src = s.src := rfl
@[simp] theorem setUpc_out (s : State) (u : BitVec 7) : (s.setUpc u).out = s.out := rfl
@[simp] theorem setUpc_params (s : State) (u : BitVec 7) : (s.setUpc u).params = s.params := rfl
@[simp] theorem setUpc_inbox (s : State) (u : BitVec 7) : (s.setUpc u).inbox = s.inbox := rfl
@[simp] theorem setUpc_replies (s : State) (u : BitVec 7) : (s.setUpc u).replies = s.replies := rfl
@[simp] theorem setUpc_lease (s : State) (u : BitVec 7) : (s.setUpc u).lease = s.lease := rfl
@[simp] theorem setUpc_job (s : State) (u : BitVec 7) : (s.setUpc u).job = s.job := rfl
@[simp] theorem setUpc_earlier (s : State) (u : BitVec 7) : (s.setUpc u).earlier = s.earlier := rfl
@[simp] theorem setUpc_free (s : State) (u : BitVec 7) : (s.setUpc u).free = s.free := rfl

/-! ### gotoBlock -/

@[simp] theorem gotoBlock_jobState (s : State) (r c : Nat) (ch : Fin 2) : (s.gotoBlock r c ch).jobState = s.jobState := rfl
@[simp] theorem gotoBlock_err (s : State) (r c : Nat) (ch : Fin 2) : (s.gotoBlock r c ch).err = s.err := rfl
@[simp] theorem gotoBlock_width (s : State) (r c : Nat) (ch : Fin 2) : (s.gotoBlock r c ch).width = s.width := rfl
@[simp] theorem gotoBlock_height (s : State) (r c : Nat) (ch : Fin 2) : (s.gotoBlock r c ch).height = s.height := rfl
@[simp] theorem gotoBlock_stride (s : State) (r c : Nat) (ch : Fin 2) : (s.gotoBlock r c ch).stride = s.stride := rfl
@[simp] theorem gotoBlock_trow (s : State) (r c : Nat) (ch : Fin 2) : (s.gotoBlock r c ch).trow = r := rfl
@[simp] theorem gotoBlock_tcol (s : State) (r c : Nat) (ch : Fin 2) : (s.gotoBlock r c ch).tcol = c := rfl
@[simp] theorem gotoBlock_ch (s : State) (r c : Nat) (ch : Fin 2) : (s.gotoBlock r c ch).ch = ch := rfl
@[simp] theorem gotoBlock_upc (s : State) (r c : Nat) (ch : Fin 2) : (s.gotoBlock r c ch).upc = upcExtract := rfl
@[simp] theorem gotoBlock_blk (s : State) (r c : Nat) (ch : Fin 2) : (s.gotoBlock r c ch).blk = s.blk := rfl
@[simp] theorem gotoBlock_minr (s : State) (r c : Nat) (ch : Fin 2) : (s.gotoBlock r c ch).minr = s.minr := rfl
@[simp] theorem gotoBlock_maxr (s : State) (r c : Nat) (ch : Fin 2) : (s.gotoBlock r c ch).maxr = s.maxr := rfl
@[simp] theorem gotoBlock_den (s : State) (r c : Nat) (ch : Fin 2) : (s.gotoBlock r c ch).den = s.den := rfl
@[simp] theorem gotoBlock_mult (s : State) (r c : Nat) (ch : Fin 2) : (s.gotoBlock r c ch).mult = s.mult := rfl
@[simp] theorem gotoBlock_code (s : State) (r c : Nat) (ch : Fin 2) : (s.gotoBlock r c ch).code = s.code := rfl
@[simp] theorem gotoBlock_packed (s : State) (r c : Nat) (ch : Fin 2) : (s.gotoBlock r c ch).packed = s.packed := rfl
@[simp] theorem gotoBlock_src (s : State) (r c : Nat) (ch : Fin 2) : (s.gotoBlock r c ch).src = s.src := rfl
@[simp] theorem gotoBlock_out (s : State) (r c : Nat) (ch : Fin 2) : (s.gotoBlock r c ch).out = s.out := rfl
@[simp] theorem gotoBlock_params (s : State) (r c : Nat) (ch : Fin 2) : (s.gotoBlock r c ch).params = s.params := rfl
@[simp] theorem gotoBlock_inbox (s : State) (r c : Nat) (ch : Fin 2) : (s.gotoBlock r c ch).inbox = s.inbox := rfl
@[simp] theorem gotoBlock_replies (s : State) (r c : Nat) (ch : Fin 2) : (s.gotoBlock r c ch).replies = s.replies := rfl
@[simp] theorem gotoBlock_lease (s : State) (r c : Nat) (ch : Fin 2) : (s.gotoBlock r c ch).lease = s.lease := rfl
@[simp] theorem gotoBlock_job (s : State) (r c : Nat) (ch : Fin 2) : (s.gotoBlock r c ch).job = s.job := rfl
@[simp] theorem gotoBlock_earlier (s : State) (r c : Nat) (ch : Fin 2) : (s.gotoBlock r c ch).earlier = s.earlier := rfl
@[simp] theorem gotoBlock_free (s : State) (r c : Nat) (ch : Fin 2) : (s.gotoBlock r c ch).free = s.free := rfl

/-! ### setBlk -/

@[simp] theorem setBlk_jobState (s : State) (b : Vector Byte 16) : (s.setBlk b).jobState = s.jobState := rfl
@[simp] theorem setBlk_err (s : State) (b : Vector Byte 16) : (s.setBlk b).err = s.err := rfl
@[simp] theorem setBlk_width (s : State) (b : Vector Byte 16) : (s.setBlk b).width = s.width := rfl
@[simp] theorem setBlk_height (s : State) (b : Vector Byte 16) : (s.setBlk b).height = s.height := rfl
@[simp] theorem setBlk_stride (s : State) (b : Vector Byte 16) : (s.setBlk b).stride = s.stride := rfl
@[simp] theorem setBlk_trow (s : State) (b : Vector Byte 16) : (s.setBlk b).trow = s.trow := rfl
@[simp] theorem setBlk_tcol (s : State) (b : Vector Byte 16) : (s.setBlk b).tcol = s.tcol := rfl
@[simp] theorem setBlk_ch (s : State) (b : Vector Byte 16) : (s.setBlk b).ch = s.ch := rfl
@[simp] theorem setBlk_upc (s : State) (b : Vector Byte 16) : (s.setBlk b).upc = s.upc := rfl
@[simp] theorem setBlk_blk (s : State) (b : Vector Byte 16) : (s.setBlk b).blk = b := rfl
@[simp] theorem setBlk_minr (s : State) (b : Vector Byte 16) : (s.setBlk b).minr = s.minr := rfl
@[simp] theorem setBlk_maxr (s : State) (b : Vector Byte 16) : (s.setBlk b).maxr = s.maxr := rfl
@[simp] theorem setBlk_den (s : State) (b : Vector Byte 16) : (s.setBlk b).den = s.den := rfl
@[simp] theorem setBlk_mult (s : State) (b : Vector Byte 16) : (s.setBlk b).mult = s.mult := rfl
@[simp] theorem setBlk_code (s : State) (b : Vector Byte 16) : (s.setBlk b).code = s.code := rfl
@[simp] theorem setBlk_packed (s : State) (b : Vector Byte 16) : (s.setBlk b).packed = s.packed := rfl
@[simp] theorem setBlk_src (s : State) (b : Vector Byte 16) : (s.setBlk b).src = s.src := rfl
@[simp] theorem setBlk_out (s : State) (b : Vector Byte 16) : (s.setBlk b).out = s.out := rfl
@[simp] theorem setBlk_params (s : State) (b : Vector Byte 16) : (s.setBlk b).params = s.params := rfl
@[simp] theorem setBlk_inbox (s : State) (b : Vector Byte 16) : (s.setBlk b).inbox = s.inbox := rfl
@[simp] theorem setBlk_replies (s : State) (b : Vector Byte 16) : (s.setBlk b).replies = s.replies := rfl
@[simp] theorem setBlk_lease (s : State) (b : Vector Byte 16) : (s.setBlk b).lease = s.lease := rfl
@[simp] theorem setBlk_job (s : State) (b : Vector Byte 16) : (s.setBlk b).job = s.job := rfl
@[simp] theorem setBlk_earlier (s : State) (b : Vector Byte 16) : (s.setBlk b).earlier = s.earlier := rfl
@[simp] theorem setBlk_free (s : State) (b : Vector Byte 16) : (s.setBlk b).free = s.free := rfl

/-! ### setEndpoints -/

@[simp] theorem setEndpoints_jobState (s : State) (lo hi : Byte) (d : BitVec 8) (m : BitVec 15) : (s.setEndpoints lo hi d m).jobState = s.jobState := rfl
@[simp] theorem setEndpoints_err (s : State) (lo hi : Byte) (d : BitVec 8) (m : BitVec 15) : (s.setEndpoints lo hi d m).err = s.err := rfl
@[simp] theorem setEndpoints_width (s : State) (lo hi : Byte) (d : BitVec 8) (m : BitVec 15) : (s.setEndpoints lo hi d m).width = s.width := rfl
@[simp] theorem setEndpoints_height (s : State) (lo hi : Byte) (d : BitVec 8) (m : BitVec 15) : (s.setEndpoints lo hi d m).height = s.height := rfl
@[simp] theorem setEndpoints_stride (s : State) (lo hi : Byte) (d : BitVec 8) (m : BitVec 15) : (s.setEndpoints lo hi d m).stride = s.stride := rfl
@[simp] theorem setEndpoints_trow (s : State) (lo hi : Byte) (d : BitVec 8) (m : BitVec 15) : (s.setEndpoints lo hi d m).trow = s.trow := rfl
@[simp] theorem setEndpoints_tcol (s : State) (lo hi : Byte) (d : BitVec 8) (m : BitVec 15) : (s.setEndpoints lo hi d m).tcol = s.tcol := rfl
@[simp] theorem setEndpoints_ch (s : State) (lo hi : Byte) (d : BitVec 8) (m : BitVec 15) : (s.setEndpoints lo hi d m).ch = s.ch := rfl
@[simp] theorem setEndpoints_upc (s : State) (lo hi : Byte) (d : BitVec 8) (m : BitVec 15) : (s.setEndpoints lo hi d m).upc = s.upc := rfl
@[simp] theorem setEndpoints_blk (s : State) (lo hi : Byte) (d : BitVec 8) (m : BitVec 15) : (s.setEndpoints lo hi d m).blk = s.blk := rfl
@[simp] theorem setEndpoints_minr (s : State) (lo hi : Byte) (d : BitVec 8) (m : BitVec 15) : (s.setEndpoints lo hi d m).minr = lo := rfl
@[simp] theorem setEndpoints_maxr (s : State) (lo hi : Byte) (d : BitVec 8) (m : BitVec 15) : (s.setEndpoints lo hi d m).maxr = hi := rfl
@[simp] theorem setEndpoints_den (s : State) (lo hi : Byte) (d : BitVec 8) (m : BitVec 15) : (s.setEndpoints lo hi d m).den = d := rfl
@[simp] theorem setEndpoints_mult (s : State) (lo hi : Byte) (d : BitVec 8) (m : BitVec 15) : (s.setEndpoints lo hi d m).mult = m := rfl
@[simp] theorem setEndpoints_code (s : State) (lo hi : Byte) (d : BitVec 8) (m : BitVec 15) : (s.setEndpoints lo hi d m).code = s.code := rfl
@[simp] theorem setEndpoints_packed (s : State) (lo hi : Byte) (d : BitVec 8) (m : BitVec 15) : (s.setEndpoints lo hi d m).packed = s.packed := rfl
@[simp] theorem setEndpoints_src (s : State) (lo hi : Byte) (d : BitVec 8) (m : BitVec 15) : (s.setEndpoints lo hi d m).src = s.src := rfl
@[simp] theorem setEndpoints_out (s : State) (lo hi : Byte) (d : BitVec 8) (m : BitVec 15) : (s.setEndpoints lo hi d m).out = s.out := rfl
@[simp] theorem setEndpoints_params (s : State) (lo hi : Byte) (d : BitVec 8) (m : BitVec 15) : (s.setEndpoints lo hi d m).params = s.params := rfl
@[simp] theorem setEndpoints_inbox (s : State) (lo hi : Byte) (d : BitVec 8) (m : BitVec 15) : (s.setEndpoints lo hi d m).inbox = s.inbox := rfl
@[simp] theorem setEndpoints_replies (s : State) (lo hi : Byte) (d : BitVec 8) (m : BitVec 15) : (s.setEndpoints lo hi d m).replies = s.replies := rfl
@[simp] theorem setEndpoints_lease (s : State) (lo hi : Byte) (d : BitVec 8) (m : BitVec 15) : (s.setEndpoints lo hi d m).lease = s.lease := rfl
@[simp] theorem setEndpoints_job (s : State) (lo hi : Byte) (d : BitVec 8) (m : BitVec 15) : (s.setEndpoints lo hi d m).job = s.job := rfl
@[simp] theorem setEndpoints_earlier (s : State) (lo hi : Byte) (d : BitVec 8) (m : BitVec 15) : (s.setEndpoints lo hi d m).earlier = s.earlier := rfl
@[simp] theorem setEndpoints_free (s : State) (lo hi : Byte) (d : BitVec 8) (m : BitVec 15) : (s.setEndpoints lo hi d m).free = s.free := rfl

/-! ### setCode -/

@[simp] theorem setCode_jobState (s : State) (k : Fin 16) (c : BitVec 3) : (s.setCode k c).jobState = s.jobState := rfl
@[simp] theorem setCode_err (s : State) (k : Fin 16) (c : BitVec 3) : (s.setCode k c).err = s.err := rfl
@[simp] theorem setCode_width (s : State) (k : Fin 16) (c : BitVec 3) : (s.setCode k c).width = s.width := rfl
@[simp] theorem setCode_height (s : State) (k : Fin 16) (c : BitVec 3) : (s.setCode k c).height = s.height := rfl
@[simp] theorem setCode_stride (s : State) (k : Fin 16) (c : BitVec 3) : (s.setCode k c).stride = s.stride := rfl
@[simp] theorem setCode_trow (s : State) (k : Fin 16) (c : BitVec 3) : (s.setCode k c).trow = s.trow := rfl
@[simp] theorem setCode_tcol (s : State) (k : Fin 16) (c : BitVec 3) : (s.setCode k c).tcol = s.tcol := rfl
@[simp] theorem setCode_ch (s : State) (k : Fin 16) (c : BitVec 3) : (s.setCode k c).ch = s.ch := rfl
@[simp] theorem setCode_upc (s : State) (k : Fin 16) (c : BitVec 3) : (s.setCode k c).upc = s.upc := rfl
@[simp] theorem setCode_blk (s : State) (k : Fin 16) (c : BitVec 3) : (s.setCode k c).blk = s.blk := rfl
@[simp] theorem setCode_minr (s : State) (k : Fin 16) (c : BitVec 3) : (s.setCode k c).minr = s.minr := rfl
@[simp] theorem setCode_maxr (s : State) (k : Fin 16) (c : BitVec 3) : (s.setCode k c).maxr = s.maxr := rfl
@[simp] theorem setCode_den (s : State) (k : Fin 16) (c : BitVec 3) : (s.setCode k c).den = s.den := rfl
@[simp] theorem setCode_mult (s : State) (k : Fin 16) (c : BitVec 3) : (s.setCode k c).mult = s.mult := rfl
@[simp] theorem setCode_code (s : State) (k : Fin 16) (c : BitVec 3) : (s.setCode k c).code = s.code.set k c := rfl
@[simp] theorem setCode_packed (s : State) (k : Fin 16) (c : BitVec 3) : (s.setCode k c).packed = s.packed := rfl
@[simp] theorem setCode_src (s : State) (k : Fin 16) (c : BitVec 3) : (s.setCode k c).src = s.src := rfl
@[simp] theorem setCode_out (s : State) (k : Fin 16) (c : BitVec 3) : (s.setCode k c).out = s.out := rfl
@[simp] theorem setCode_params (s : State) (k : Fin 16) (c : BitVec 3) : (s.setCode k c).params = s.params := rfl
@[simp] theorem setCode_inbox (s : State) (k : Fin 16) (c : BitVec 3) : (s.setCode k c).inbox = s.inbox := rfl
@[simp] theorem setCode_replies (s : State) (k : Fin 16) (c : BitVec 3) : (s.setCode k c).replies = s.replies := rfl
@[simp] theorem setCode_lease (s : State) (k : Fin 16) (c : BitVec 3) : (s.setCode k c).lease = s.lease := rfl
@[simp] theorem setCode_job (s : State) (k : Fin 16) (c : BitVec 3) : (s.setCode k c).job = s.job := rfl
@[simp] theorem setCode_earlier (s : State) (k : Fin 16) (c : BitVec 3) : (s.setCode k c).earlier = s.earlier := rfl
@[simp] theorem setCode_free (s : State) (k : Fin 16) (c : BitVec 3) : (s.setCode k c).free = s.free := rfl

/-! ### setPacked -/

@[simp] theorem setPacked_jobState (s : State) (v : BitVec 64) : (s.setPacked v).jobState = s.jobState := rfl
@[simp] theorem setPacked_err (s : State) (v : BitVec 64) : (s.setPacked v).err = s.err := rfl
@[simp] theorem setPacked_width (s : State) (v : BitVec 64) : (s.setPacked v).width = s.width := rfl
@[simp] theorem setPacked_height (s : State) (v : BitVec 64) : (s.setPacked v).height = s.height := rfl
@[simp] theorem setPacked_stride (s : State) (v : BitVec 64) : (s.setPacked v).stride = s.stride := rfl
@[simp] theorem setPacked_trow (s : State) (v : BitVec 64) : (s.setPacked v).trow = s.trow := rfl
@[simp] theorem setPacked_tcol (s : State) (v : BitVec 64) : (s.setPacked v).tcol = s.tcol := rfl
@[simp] theorem setPacked_ch (s : State) (v : BitVec 64) : (s.setPacked v).ch = s.ch := rfl
@[simp] theorem setPacked_upc (s : State) (v : BitVec 64) : (s.setPacked v).upc = s.upc := rfl
@[simp] theorem setPacked_blk (s : State) (v : BitVec 64) : (s.setPacked v).blk = s.blk := rfl
@[simp] theorem setPacked_minr (s : State) (v : BitVec 64) : (s.setPacked v).minr = s.minr := rfl
@[simp] theorem setPacked_maxr (s : State) (v : BitVec 64) : (s.setPacked v).maxr = s.maxr := rfl
@[simp] theorem setPacked_den (s : State) (v : BitVec 64) : (s.setPacked v).den = s.den := rfl
@[simp] theorem setPacked_mult (s : State) (v : BitVec 64) : (s.setPacked v).mult = s.mult := rfl
@[simp] theorem setPacked_code (s : State) (v : BitVec 64) : (s.setPacked v).code = s.code := rfl
@[simp] theorem setPacked_packed (s : State) (v : BitVec 64) : (s.setPacked v).packed = v := rfl
@[simp] theorem setPacked_src (s : State) (v : BitVec 64) : (s.setPacked v).src = s.src := rfl
@[simp] theorem setPacked_out (s : State) (v : BitVec 64) : (s.setPacked v).out = s.out := rfl
@[simp] theorem setPacked_params (s : State) (v : BitVec 64) : (s.setPacked v).params = s.params := rfl
@[simp] theorem setPacked_inbox (s : State) (v : BitVec 64) : (s.setPacked v).inbox = s.inbox := rfl
@[simp] theorem setPacked_replies (s : State) (v : BitVec 64) : (s.setPacked v).replies = s.replies := rfl
@[simp] theorem setPacked_lease (s : State) (v : BitVec 64) : (s.setPacked v).lease = s.lease := rfl
@[simp] theorem setPacked_job (s : State) (v : BitVec 64) : (s.setPacked v).job = s.job := rfl
@[simp] theorem setPacked_earlier (s : State) (v : BitVec 64) : (s.setPacked v).earlier = s.earlier := rfl
@[simp] theorem setPacked_free (s : State) (v : BitVec 64) : (s.setPacked v).free = s.free := rfl

/-! ### setOut -/

@[simp] theorem setOut_jobState (s : State) (m : Mem) : (s.setOut m).jobState = s.jobState := rfl
@[simp] theorem setOut_err (s : State) (m : Mem) : (s.setOut m).err = s.err := rfl
@[simp] theorem setOut_width (s : State) (m : Mem) : (s.setOut m).width = s.width := rfl
@[simp] theorem setOut_height (s : State) (m : Mem) : (s.setOut m).height = s.height := rfl
@[simp] theorem setOut_stride (s : State) (m : Mem) : (s.setOut m).stride = s.stride := rfl
@[simp] theorem setOut_trow (s : State) (m : Mem) : (s.setOut m).trow = s.trow := rfl
@[simp] theorem setOut_tcol (s : State) (m : Mem) : (s.setOut m).tcol = s.tcol := rfl
@[simp] theorem setOut_ch (s : State) (m : Mem) : (s.setOut m).ch = s.ch := rfl
@[simp] theorem setOut_upc (s : State) (m : Mem) : (s.setOut m).upc = s.upc := rfl
@[simp] theorem setOut_blk (s : State) (m : Mem) : (s.setOut m).blk = s.blk := rfl
@[simp] theorem setOut_minr (s : State) (m : Mem) : (s.setOut m).minr = s.minr := rfl
@[simp] theorem setOut_maxr (s : State) (m : Mem) : (s.setOut m).maxr = s.maxr := rfl
@[simp] theorem setOut_den (s : State) (m : Mem) : (s.setOut m).den = s.den := rfl
@[simp] theorem setOut_mult (s : State) (m : Mem) : (s.setOut m).mult = s.mult := rfl
@[simp] theorem setOut_code (s : State) (m : Mem) : (s.setOut m).code = s.code := rfl
@[simp] theorem setOut_packed (s : State) (m : Mem) : (s.setOut m).packed = s.packed := rfl
@[simp] theorem setOut_src (s : State) (m : Mem) : (s.setOut m).src = s.src := rfl
@[simp] theorem setOut_out (s : State) (m : Mem) : (s.setOut m).out = m := rfl
@[simp] theorem setOut_params (s : State) (m : Mem) : (s.setOut m).params = s.params := rfl
@[simp] theorem setOut_inbox (s : State) (m : Mem) : (s.setOut m).inbox = s.inbox := rfl
@[simp] theorem setOut_replies (s : State) (m : Mem) : (s.setOut m).replies = s.replies := rfl
@[simp] theorem setOut_lease (s : State) (m : Mem) : (s.setOut m).lease = s.lease := rfl
@[simp] theorem setOut_job (s : State) (m : Mem) : (s.setOut m).job = s.job := rfl
@[simp] theorem setOut_earlier (s : State) (m : Mem) : (s.setOut m).earlier = s.earlier := rfl
@[simp] theorem setOut_free (s : State) (m : Mem) : (s.setOut m).free = s.free := rfl

/-! ### setStatus -/

@[simp] theorem setStatus_jobState (s : State) (st : JobState) (e : ErrCode) : (s.setStatus st e).jobState = st := rfl
@[simp] theorem setStatus_err (s : State) (st : JobState) (e : ErrCode) : (s.setStatus st e).err = e := rfl
@[simp] theorem setStatus_width (s : State) (st : JobState) (e : ErrCode) : (s.setStatus st e).width = s.width := rfl
@[simp] theorem setStatus_height (s : State) (st : JobState) (e : ErrCode) : (s.setStatus st e).height = s.height := rfl
@[simp] theorem setStatus_stride (s : State) (st : JobState) (e : ErrCode) : (s.setStatus st e).stride = s.stride := rfl
@[simp] theorem setStatus_trow (s : State) (st : JobState) (e : ErrCode) : (s.setStatus st e).trow = s.trow := rfl
@[simp] theorem setStatus_tcol (s : State) (st : JobState) (e : ErrCode) : (s.setStatus st e).tcol = s.tcol := rfl
@[simp] theorem setStatus_ch (s : State) (st : JobState) (e : ErrCode) : (s.setStatus st e).ch = s.ch := rfl
@[simp] theorem setStatus_upc (s : State) (st : JobState) (e : ErrCode) : (s.setStatus st e).upc = s.upc := rfl
@[simp] theorem setStatus_blk (s : State) (st : JobState) (e : ErrCode) : (s.setStatus st e).blk = s.blk := rfl
@[simp] theorem setStatus_minr (s : State) (st : JobState) (e : ErrCode) : (s.setStatus st e).minr = s.minr := rfl
@[simp] theorem setStatus_maxr (s : State) (st : JobState) (e : ErrCode) : (s.setStatus st e).maxr = s.maxr := rfl
@[simp] theorem setStatus_den (s : State) (st : JobState) (e : ErrCode) : (s.setStatus st e).den = s.den := rfl
@[simp] theorem setStatus_mult (s : State) (st : JobState) (e : ErrCode) : (s.setStatus st e).mult = s.mult := rfl
@[simp] theorem setStatus_code (s : State) (st : JobState) (e : ErrCode) : (s.setStatus st e).code = s.code := rfl
@[simp] theorem setStatus_packed (s : State) (st : JobState) (e : ErrCode) : (s.setStatus st e).packed = s.packed := rfl
@[simp] theorem setStatus_src (s : State) (st : JobState) (e : ErrCode) : (s.setStatus st e).src = s.src := rfl
@[simp] theorem setStatus_out (s : State) (st : JobState) (e : ErrCode) : (s.setStatus st e).out = s.out := rfl
@[simp] theorem setStatus_params (s : State) (st : JobState) (e : ErrCode) : (s.setStatus st e).params = s.params := rfl
@[simp] theorem setStatus_inbox (s : State) (st : JobState) (e : ErrCode) : (s.setStatus st e).inbox = s.inbox := rfl
@[simp] theorem setStatus_replies (s : State) (st : JobState) (e : ErrCode) : (s.setStatus st e).replies = s.replies := rfl
@[simp] theorem setStatus_lease (s : State) (st : JobState) (e : ErrCode) : (s.setStatus st e).lease = s.lease := rfl
@[simp] theorem setStatus_job (s : State) (st : JobState) (e : ErrCode) : (s.setStatus st e).job = s.job := rfl
@[simp] theorem setStatus_earlier (s : State) (st : JobState) (e : ErrCode) : (s.setStatus st e).earlier = s.earlier := rfl
@[simp] theorem setStatus_free (s : State) (st : JobState) (e : ErrCode) : (s.setStatus st e).free = s.free := rfl

/-! ### raiseFault -/

@[simp] theorem raiseFault_jobState (s : State) (e : ErrCode) : (s.raiseFault e).jobState = .error := rfl
@[simp] theorem raiseFault_err (s : State) (e : ErrCode) : (s.raiseFault e).err = e := rfl
@[simp] theorem raiseFault_width (s : State) (e : ErrCode) : (s.raiseFault e).width = s.width := rfl
@[simp] theorem raiseFault_height (s : State) (e : ErrCode) : (s.raiseFault e).height = s.height := rfl
@[simp] theorem raiseFault_stride (s : State) (e : ErrCode) : (s.raiseFault e).stride = s.stride := rfl
@[simp] theorem raiseFault_trow (s : State) (e : ErrCode) : (s.raiseFault e).trow = s.trow := rfl
@[simp] theorem raiseFault_tcol (s : State) (e : ErrCode) : (s.raiseFault e).tcol = s.tcol := rfl
@[simp] theorem raiseFault_ch (s : State) (e : ErrCode) : (s.raiseFault e).ch = s.ch := rfl
@[simp] theorem raiseFault_upc (s : State) (e : ErrCode) : (s.raiseFault e).upc = upcNone := rfl
@[simp] theorem raiseFault_blk (s : State) (e : ErrCode) : (s.raiseFault e).blk = s.blk := rfl
@[simp] theorem raiseFault_minr (s : State) (e : ErrCode) : (s.raiseFault e).minr = s.minr := rfl
@[simp] theorem raiseFault_maxr (s : State) (e : ErrCode) : (s.raiseFault e).maxr = s.maxr := rfl
@[simp] theorem raiseFault_den (s : State) (e : ErrCode) : (s.raiseFault e).den = s.den := rfl
@[simp] theorem raiseFault_mult (s : State) (e : ErrCode) : (s.raiseFault e).mult = s.mult := rfl
@[simp] theorem raiseFault_code (s : State) (e : ErrCode) : (s.raiseFault e).code = s.code := rfl
@[simp] theorem raiseFault_packed (s : State) (e : ErrCode) : (s.raiseFault e).packed = s.packed := rfl
@[simp] theorem raiseFault_src (s : State) (e : ErrCode) : (s.raiseFault e).src = s.src := rfl
@[simp] theorem raiseFault_out (s : State) (e : ErrCode) : (s.raiseFault e).out = s.out := rfl
@[simp] theorem raiseFault_params (s : State) (e : ErrCode) : (s.raiseFault e).params = s.params := rfl
@[simp] theorem raiseFault_inbox (s : State) (e : ErrCode) : (s.raiseFault e).inbox = s.inbox := rfl
@[simp] theorem raiseFault_replies (s : State) (e : ErrCode) : (s.raiseFault e).replies = s.replies := rfl
@[simp] theorem raiseFault_lease (s : State) (e : ErrCode) : (s.raiseFault e).lease = s.lease := rfl
@[simp] theorem raiseFault_job (s : State) (e : ErrCode) : (s.raiseFault e).job = s.job := rfl
@[simp] theorem raiseFault_earlier (s : State) (e : ErrCode) : (s.raiseFault e).earlier = s.earlier := rfl
@[simp] theorem raiseFault_free (s : State) (e : ErrCode) : (s.raiseFault e).free = s.free := rfl

/-! ### launch -/

@[simp] theorem launch_jobState (s : State) (n : Nat) : (s.launch n).jobState = s.jobState := rfl
@[simp] theorem launch_err (s : State) (n : Nat) : (s.launch n).err = s.err := rfl
@[simp] theorem launch_width (s : State) (n : Nat) : (s.launch n).width = s.width := rfl
@[simp] theorem launch_height (s : State) (n : Nat) : (s.launch n).height = s.height := rfl
@[simp] theorem launch_stride (s : State) (n : Nat) : (s.launch n).stride = s.stride := rfl
@[simp] theorem launch_trow (s : State) (n : Nat) : (s.launch n).trow = s.trow := rfl
@[simp] theorem launch_tcol (s : State) (n : Nat) : (s.launch n).tcol = s.tcol := rfl
@[simp] theorem launch_ch (s : State) (n : Nat) : (s.launch n).ch = s.ch := rfl
@[simp] theorem launch_upc (s : State) (n : Nat) : (s.launch n).upc = s.upc := rfl
@[simp] theorem launch_blk (s : State) (n : Nat) : (s.launch n).blk = s.blk := rfl
@[simp] theorem launch_minr (s : State) (n : Nat) : (s.launch n).minr = s.minr := rfl
@[simp] theorem launch_maxr (s : State) (n : Nat) : (s.launch n).maxr = s.maxr := rfl
@[simp] theorem launch_den (s : State) (n : Nat) : (s.launch n).den = s.den := rfl
@[simp] theorem launch_mult (s : State) (n : Nat) : (s.launch n).mult = s.mult := rfl
@[simp] theorem launch_code (s : State) (n : Nat) : (s.launch n).code = s.code := rfl
@[simp] theorem launch_packed (s : State) (n : Nat) : (s.launch n).packed = s.packed := rfl
@[simp] theorem launch_src (s : State) (n : Nat) : (s.launch n).src = s.src := rfl
@[simp] theorem launch_out (s : State) (n : Nat) : (s.launch n).out = s.out := rfl
@[simp] theorem launch_params (s : State) (n : Nat) : (s.launch n).params = s.params := rfl
@[simp] theorem launch_inbox (s : State) (n : Nat) : (s.launch n).inbox = s.inbox := rfl
@[simp] theorem launch_replies (s : State) (n : Nat) : (s.launch n).replies = s.replies := rfl
@[simp] theorem launch_lease (s : State) (n : Nat) : (s.launch n).lease = true := rfl
@[simp] theorem launch_job (s : State) (n : Nat) : (s.launch n).job = ⟨s.image, n, s.out, [], [], [], false⟩ := rfl
@[simp] theorem launch_earlier (s : State) (n : Nat) :
    (s.launch n).earlier = { s.job with completed := s.jobState == .done } :: s.earlier := rfl
@[simp] theorem launch_free (s : State) (n : Nat) : (s.launch n).free = s.free + 1 := rfl

/-! ### enterReset: the fields it gives a value, and those it leaves; the others become free values -/

@[simp] theorem enterReset_jobState (s : State) : s.enterReset.jobState = .idle := rfl
@[simp] theorem enterReset_err (s : State) : s.enterReset.err = .none := rfl
@[simp] theorem enterReset_width (s : State) : s.enterReset.width = 0 := rfl
@[simp] theorem enterReset_height (s : State) : s.enterReset.height = 0 := rfl
@[simp] theorem enterReset_stride (s : State) : s.enterReset.stride = 0 := rfl
@[simp] theorem enterReset_upc (s : State) : s.enterReset.upc = upcNone := rfl
@[simp] theorem enterReset_src (s : State) : s.enterReset.src = s.src := rfl
@[simp] theorem enterReset_out (s : State) : s.enterReset.out = s.out := rfl
@[simp] theorem enterReset_params (s : State) : s.enterReset.params = s.params := rfl
@[simp] theorem enterReset_inbox (s : State) : s.enterReset.inbox = s.inbox := rfl
@[simp] theorem enterReset_replies (s : State) : s.enterReset.replies = s.replies := rfl
@[simp] theorem enterReset_lease (s : State) : s.enterReset.lease = false := rfl
@[simp] theorem enterReset_job (s : State) : s.enterReset.job = s.job := rfl
@[simp] theorem enterReset_earlier (s : State) : s.enterReset.earlier = s.earlier := rfl
@[simp] theorem enterReset_free (s : State) : s.enterReset.free = s.free + 1 := rfl

/-! ### The image is a function of WIDTH, HEIGHT, STRIDE, SRC and the parameters -/

@[simp] theorem setUpc_image (s : State) (u : BitVec 7) : (s.setUpc u).image = s.image := rfl
@[simp] theorem gotoBlock_image (s : State) (r c : Nat) (ch : Fin 2) : (s.gotoBlock r c ch).image = s.image := rfl
@[simp] theorem setBlk_image (s : State) (b : Vector Byte 16) : (s.setBlk b).image = s.image := rfl
@[simp] theorem setEndpoints_image (s : State) (lo hi : Byte) (d : BitVec 8) (m : BitVec 15) : (s.setEndpoints lo hi d m).image = s.image := rfl
@[simp] theorem setCode_image (s : State) (k : Fin 16) (c : BitVec 3) : (s.setCode k c).image = s.image := rfl
@[simp] theorem setPacked_image (s : State) (v : BitVec 64) : (s.setPacked v).image = s.image := rfl
@[simp] theorem setOut_image (s : State) (m : Mem) : (s.setOut m).image = s.image := rfl
@[simp] theorem setStatus_image (s : State) (st : JobState) (e : ErrCode) : (s.setStatus st e).image = s.image := rfl
@[simp] theorem raiseFault_image (s : State) (e : ErrCode) : (s.raiseFault e).image = s.image := rfl
@[simp] theorem launch_image (s : State) (n : Nat) : (s.launch n).image = s.image := rfl
@[simp] theorem setUpc_outLen (s : State) (u : BitVec 7) : (s.setUpc u).outLen = s.outLen := rfl
@[simp] theorem gotoBlock_outLen (s : State) (r c : Nat) (ch : Fin 2) : (s.gotoBlock r c ch).outLen = s.outLen := rfl
@[simp] theorem setBlk_outLen (s : State) (b : Vector Byte 16) : (s.setBlk b).outLen = s.outLen := rfl
@[simp] theorem setEndpoints_outLen (s : State) (lo hi : Byte) (d : BitVec 8) (m : BitVec 15) : (s.setEndpoints lo hi d m).outLen = s.outLen := rfl
@[simp] theorem setCode_outLen (s : State) (k : Fin 16) (c : BitVec 3) : (s.setCode k c).outLen = s.outLen := rfl
@[simp] theorem setPacked_outLen (s : State) (v : BitVec 64) : (s.setPacked v).outLen = s.outLen := rfl
@[simp] theorem setOut_outLen (s : State) (m : Mem) : (s.setOut m).outLen = s.outLen := rfl
@[simp] theorem setStatus_outLen (s : State) (st : JobState) (e : ErrCode) : (s.setStatus st e).outLen = s.outLen := rfl
@[simp] theorem raiseFault_outLen (s : State) (e : ErrCode) : (s.raiseFault e).outLen = s.outLen := rfl
@[simp] theorem launch_outLen (s : State) (n : Nat) : (s.launch n).outLen = s.outLen := rfl

@[simp] theorem setUpc_slotOffset (s : State) (u : BitVec 7) : (s.setUpc u).slotOffset = s.slotOffset := rfl
@[simp] theorem setBlk_slotOffset (s : State) (b : Vector Byte 16) : (s.setBlk b).slotOffset = s.slotOffset := rfl
@[simp] theorem setEndpoints_slotOffset (s : State) (lo hi : Byte) (d : BitVec 8) (m : BitVec 15) : (s.setEndpoints lo hi d m).slotOffset = s.slotOffset := rfl
@[simp] theorem setCode_slotOffset (s : State) (k : Fin 16) (c : BitVec 3) : (s.setCode k c).slotOffset = s.slotOffset := rfl
@[simp] theorem setPacked_slotOffset (s : State) (v : BitVec 64) : (s.setPacked v).slotOffset = s.slotOffset := rfl
@[simp] theorem setOut_slotOffset (s : State) (m : Mem) : (s.setOut m).slotOffset = s.slotOffset := rfl
@[simp] theorem setStatus_slotOffset (s : State) (st : JobState) (e : ErrCode) : (s.setStatus st e).slotOffset = s.slotOffset := rfl
@[simp] theorem raiseFault_slotOffset (s : State) (e : ErrCode) : (s.raiseFault e).slotOffset = s.slotOffset := rfl
@[simp] theorem launch_slotOffset (s : State) (n : Nat) : (s.launch n).slotOffset = s.slotOffset := rfl

end Sys2Proof.Laws
end

