-- ==== Sys2Proof/Laws/Exec.lean ====
section
/-! SUPPORT. Everything each instruction, each access of the host and the step can do, said once. -/

namespace Sys2Proof.Laws

open Sys2Proof.Machine

/-! ### The micro-operations and the commands -/

theorem execExtract_next {s t : State} (h : execExtract s = .next t) :
    (extractAdmitted s.image s.trow s.tcol s.ch = true ∧ t = (s.setBlk s.sampleBlock).setUpc upcEndpts) ∨
    (extractAdmitted s.image s.trow s.tcol s.ch = false ∧ t = s.raiseFault (s.faultCode .src)) := by
  unfold execExtract at h
  split at h <;> cases h <;> simp_all

theorem execEndpts_next {s t : State} (h : execEndpts s = .next t) :
    t = (s.setEndpoints (computeEndpoints s.blk).1 (computeEndpoints s.blk).2
      (BitVec.ofNat 8 ((computeEndpoints s.blk).2.toNat - (computeEndpoints s.blk).1.toNat))
      (BitVec.ofNat 15
        (multiplier ((computeEndpoints s.blk).2.toNat - (computeEndpoints s.blk).1.toNat)))).setUpc (upcQuant 0) := by
  cases h; rfl

theorem quantize_eq_some {x lo hi : Byte} {c : BitVec 3} (h : quantize x lo hi = some c) :
    quantizeAdmits x lo hi = true ∧ c = quantizeCode x lo hi := by
  unfold quantize at h
  split at h <;> simp_all

theorem execQuant_next {k : Fin 16} {s t : State} (h : execQuant k s = .next t) :
    quantizeAdmits s.blk[k] s.minr s.maxr = true ∧
      t = (s.setCode k (quantizeCode s.blk[k] s.minr s.maxr)).setUpc (upcAfterLane k) := by
  unfold execQuant at h
  split at h
  · next c hc =>
    obtain ⟨ha, rfl⟩ := quantize_eq_some hc
    cases h
    exact ⟨ha, rfl⟩
  · cases h

theorem execPack_next {s t : State} (h : execPack s = .next t) :
    t = (s.setPacked (pack s.maxr s.minr s.code)).setUpc upcStore := by
  cases h; rfl

theorem execStore_next {s t : State} (h : execStore s = .next t) :
    (outAdmits s.params s.slotOffset = true ∧
      t = (s.setOut (Mem.write64 s.out s.slotOffset s.packed)).setUpc upcNext) ∨
    (outAdmits s.params s.slotOffset = false ∧ t = s.raiseFault (s.faultCode .out)) := by
  unfold execStore at h
  split at h <;> cases h <;> simp_all

theorem execNext_next {s t : State} (h : execNext s = .next t) :
    (s.ch = 0 ∧ t = s.gotoBlock s.trow s.tcol 1) ∨
    (s.ch ≠ 0 ∧ s.tcol + 1 < s.image.tilesX ∧ t = s.gotoBlock s.trow (s.tcol + 1) 0) ∨
    (s.ch ≠ 0 ∧ s.image.tilesX ≤ s.tcol + 1 ∧ s.trow + 1 < s.image.tilesY ∧ t = s.gotoBlock (s.trow + 1) 0 0) ∨
    (s.ch ≠ 0 ∧ s.image.tilesX ≤ s.tcol + 1 ∧ s.image.tilesY ≤ s.trow + 1 ∧
      t = (s.setStatus .done s.err).setUpc upcNone) := by
  unfold execNext at h
  split at h
  · next h0 => cases h; exact .inl ⟨h0, rfl⟩
  · next h0 =>
    split at h
    · next h1 => cases h; exact .inr (.inl ⟨h0, h1, rfl⟩)
    · next h1 =>
      split at h
      · next h2 => cases h; exact .inr (.inr (.inl ⟨h0, Nat.le_of_not_lt h1, h2, rfl⟩))
      · next h2 => cases h; exact .inr (.inr (.inr ⟨h0, Nat.le_of_not_lt h1, Nat.le_of_not_lt h2, rfl⟩))

theorem execStart_next {s t : State} (h : execStart s = .next t) :
    ((s.jobState = .busy ∨ s.jobState = .error) ∧ t = s) ∨
    ((s.jobState = .idle ∨ s.jobState = .done) ∧
      ((s.stride < 4 * s.width ∧ t = (s.launch 0).raiseFault .cfg) ∨
       (4 * s.width ≤ s.stride ∧ s.params.outCap < s.outLen ∧ t = (s.launch 0).raiseFault .alloc) ∨
       (4 * s.width ≤ s.stride ∧ s.outLen ≤ s.params.outCap ∧ s.outLen = 0 ∧
          t = (s.launch 0).setStatus .done s.err) ∨
       (4 * s.width ≤ s.stride ∧ s.outLen ≤ s.params.outCap ∧ s.outLen ≠ 0 ∧
          t = ((s.launch s.outLen).setStatus .busy .none).gotoBlock 0 0 0))) := by
  unfold execStart at h
  split at h
  · next h0 => cases h; exact .inl ⟨h0, rfl⟩
  · next h0 =>
    have hs : s.jobState = .idle ∨ s.jobState = .done := by
      cases hj : s.jobState <;> simp_all
    refine .inr ⟨hs, ?_⟩
    split at h
    · next h1 => cases h; exact .inl ⟨h1, rfl⟩
    · next h1 =>
      split at h
      · next h2 => cases h; exact .inr (.inl ⟨Nat.le_of_not_lt h1, h2, rfl⟩)
      · next h2 =>
        split at h
        · next h3 => cases h; exact .inr (.inr (.inl ⟨Nat.le_of_not_lt h1, Nat.le_of_not_lt h2, h3, rfl⟩))
        · next h3 => cases h; exact .inr (.inr (.inr ⟨Nat.le_of_not_lt h1, Nat.le_of_not_lt h2, h3, rfl⟩))

theorem execReset_next {s t : State} (h : execReset s = .next t) : t = s.enterReset := by
  cases h; rfl

/-- No instruction faults: the four faults of RGTC-ENC are next states (R135, R142). -/
theorem exec_no_fault (i : Instr) (s : State) (f : Fault) : exec i s ≠ .fault f := by
  cases i <;> simp only [exec, execExtract, execEndpts, execQuant, execPack, execStore, execNext, execStart, execReset]
    <;> (repeat' split) <;> exact nofun

/-! ### Codes -/

theorem decodeCtrl_eq_ok {v : Nat} {i : Instr} (h : decodeCtrl v = .ok i) :
    (v = 1 ∧ i = .start) ∨ (v = 2 ∧ i = .reset) := by
  unfold decodeCtrl at h
  split at h
  · cases h; exact .inl ⟨‹_›, rfl⟩
  · split at h
    · cases h; exact .inr ⟨‹_›, rfl⟩
    · cases h

/-- The codes the sequencer issues (R59). -/
theorem decodeUpc_eq_ok {u : BitVec 7} {i : Instr} (h : decodeUpc u = .ok i) :
    (u = upcExtract ∧ i = .extract) ∨ (u = upcEndpts ∧ i = .endpts) ∨ (∃ k, u = upcQuant k ∧ i = .quant k) ∨
    (u = upcPack ∧ i = .pack) ∨ (u = upcStore ∧ i = .store) ∨ (u = upcNext ∧ i = .next) := by
  have all : ∀ u : BitVec 7, (decodeUpc u).toOption.all (fun i => encode i == .upc u) = true := by decide
  have hu : encode i = .upc u := by simpa [h, Except.toOption] using all u
  cases i <;> simp only [encode, Code.upc.injEq, reduceCtorEq] at hu <;> subst hu <;>
    simp [upcExtract, upcEndpts, upcQuant, upcPack, upcStore, upcNext]

@[simp] theorem decodeUpc_extract : decodeUpc upcExtract = .ok .extract := by decide
@[simp] theorem decodeUpc_endpts : decodeUpc upcEndpts = .ok .endpts := by decide
@[simp] theorem decodeUpc_quant (k : Fin 16) : decodeUpc (upcQuant k) = .ok (.quant k) := by revert k; decide
@[simp] theorem decodeUpc_pack : decodeUpc upcPack = .ok .pack := by decide
@[simp] theorem decodeUpc_store : decodeUpc upcStore = .ok .store := by decide
@[simp] theorem decodeUpc_next : decodeUpc upcNext = .ok .next := by decide

/-! ### The host's accesses -/

theorem hostWriteReg_next {n v : Nat} {s t : State} (h : hostWriteReg n v s = .next t) :
    (n = 0 ∧ v = 1 ∧ execStart s = .next t) ∨ (n = 0 ∧ v = 2 ∧ t = s.enterReset) ∨
    (n = 0 ∧ v ≠ 1 ∧ v ≠ 2 ∧ t = s) ∨ (n ≠ 0 ∧ t = writeDims n v s) := by
  unfold hostWriteReg at h
  split at h
  · next hn =>
    split at h
    · next i hi =>
      rcases decodeCtrl_eq_ok hi with ⟨rfl, rfl⟩ | ⟨rfl, rfl⟩
      · exact .inl ⟨hn, rfl, h⟩
      · exact .inr (.inl ⟨hn, rfl, execReset_next h⟩)
    · next e he =>
      cases h
      refine .inr (.inr (.inl ⟨hn, ?_, ?_, rfl⟩)) <;> rintro rfl <;> simp [decodeCtrl] at he
  · next hn => cases h; exact .inr (.inr (.inr ⟨hn, rfl⟩))

theorem writeDims_cases (n v : Nat) (s : State) :
    writeDims n v s = s ∨ (s.jobState ≠ .busy ∧
      (writeDims n v s = { s with width := v % 2 ^ s.params.dimBits } ∨
       writeDims n v s = { s with height := v % 2 ^ s.params.dimBits } ∨
       writeDims n v s = { s with stride := v % 2 ^ s.params.strideBits })) := by
  unfold writeDims
  split
  · exact .inl rfl
  · next hb =>
    split
    · exact .inr ⟨hb, .inl rfl⟩
    · split
      · exact .inr ⟨hb, .inr (.inl rfl)⟩
      · split
        · exact .inr ⟨hb, .inr (.inr rfl)⟩
        · exact .inl rfl

theorem hostPutSrc_next {off : Nat} {bytes : List Byte} {s t : State} (h : hostPutSrc off bytes s = .next t) :
    off + bytes.length ≤ s.params.srcLen ∧
      t = { s with
        src := Mem.writeBytes s.src off bytes
        job := if s.jobState = .busy then { s.job with srcPuts := s.job.srcPuts ++ cellsAt off bytes } else s.job } := by
  unfold hostPutSrc at h
  split at h
  · cases h
  · next hc => cases h; exact ⟨Nat.le_of_not_lt hc, rfl⟩

theorem hostPutOut_next {off : Nat} {bytes : List Byte} {s t : State} (h : hostPutOut off bytes s = .next t) :
    off + bytes.length ≤ s.params.outCap ∧
      t = { s with
        out := Mem.writeBytes s.out (off + (bytes.take (s.ownedLen - off)).length) (bytes.drop (s.ownedLen - off))
        job := { s.job with
          outPuts := hostPuts s.free off (bytes.take (s.ownedLen - off)) ++ s.job.outPuts
          settled := (cellsAt (off + (bytes.take (s.ownedLen - off)).length)
            (bytes.drop (s.ownedLen - off))).map Prod.fst ++ s.job.settled }
        free := s.free + 1 } := by
  unfold hostPutOut at h
  split at h
  · cases h
  · next hc => cases h; exact ⟨Nat.le_of_not_lt hc, rfl⟩

theorem hostGetOut_next {off len : Nat} {s t : State} (h : hostGetOut off len s = .next t) :
    off + len ≤ s.params.outCap ∧
      t = { s with
        replies := s.replies ++ [.out off ((List.range len).map fun i => s.outByte (off + i))]
        free := s.free + 1 } := by
  unfold hostGetOut at h
  split at h
  · cases h
  · next hc => cases h; exact ⟨Nat.le_of_not_lt hc, rfl⟩

/-! ### The step -/

/-- A BUSY machine's move is the micro-operation its UPC names. -/
theorem issue_next {s t : State} (h : issue s = .next t) : ∃ i, decodeUpc s.upc = .ok i ∧ exec i s = .next t := by
  unfold issue at h
  split at h
  · next i hi => exact ⟨i, hi, h⟩
  · cases h

theorem encoderStep_next {s t : State} (h : encoderStep s = .next t) :
    (s.jobState = .busy ∧ issue s = .next t) ∨ (s.jobState ≠ .busy ∧ t = s) := by
  unfold encoderStep at h
  split at h
  · exact .inl ⟨‹_›, h⟩
  · cases h; exact .inr ⟨‹_›, rfl⟩

/-- Everything a step can do: the encoder moves, perhaps with the first pending access one count nearer, or that access
lands. -/
theorem step_next {s t : State} (h : step s = .next t) :
    (∃ q, encoderStep { s with inbox := q } = .next t) ∨
    (∃ op rest, s.inbox = ⟨0, op⟩ :: rest ∧ (op = .waitJob → s.jobState ≠ .busy) ∧
      hostAccess op { s with inbox := rest } = .next t) := by
  simp only [step, advance] at h
  split at h
  · next hq => exact .inl ⟨s.inbox, by simpa using h⟩
  · exact .inl ⟨_, h⟩
  · next op rest hq =>
    split at h
    · next hw => exact .inl ⟨s.inbox, (if_pos hw.2).trans h⟩
    · next hw => exact .inr ⟨op, rest, hq, fun h1 h2 => hw ⟨h1, h2⟩, h⟩

/-- With nothing pending, a BUSY machine issues. -/
theorem step_of_busy {s : State} (hq : s.inbox = []) (hb : s.jobState = .busy) : step s = issue s := by
  simp [step, advance, hq, encoderStep, hb]

end Sys2Proof.Laws
end

