-- ==== Sys2Proof/Laws/Operands.lean ====
section
/-! SUPPORT. What the operand functions and the checks say, as facts on numbers. -/

namespace Sys2Proof.Laws

open Sys2Proof.Machine

@[simp] theorem image_width (s : State) : s.image.width = s.width := rfl
@[simp] theorem image_height (s : State) : s.image.height = s.height := rfl
@[simp] theorem image_stride (s : State) : s.image.stride = s.stride := rfl
@[simp] theorem image_src (s : State) : s.image.src = s.src := rfl
@[simp] theorem image_params (s : State) : s.image.params = s.params := rfl

theorem ceilDiv_four (a : Nat) : ceilDiv a 4 = (a + 3) / 4 := rfl

theorem tilesX_eq (img : Image) : img.tilesX = (img.width + 3) / 4 := rfl

theorem tilesY_eq (img : Image) : img.tilesY = (img.height + 3) / 4 := rfl

theorem outLen_eq (s : State) : s.outLen = (s.width + 3) / 4 * ((s.height + 3) / 4) * 16 := rfl

/-- OUT_LEN is 0 exactly for an image without columns or rows (R118). -/
theorem outLen_eq_zero (s : State) : s.outLen = 0 ↔ s.width = 0 ∨ s.height = 0 := by
  rw [outLen_eq, Nat.mul_eq_zero, Nat.mul_eq_zero]
  omega

/-- The clamp of R71 for an image that has the dimension. -/
theorem clampCoord_of_pos (x : Nat) {dim : Nat} (h : 1 ≤ dim) : clampCoord x dim = min x (dim - 1) :=
  if_neg (by omega)

theorem clampCoord_lt (x : Nat) {dim : Nat} (h : 1 ≤ dim) : clampCoord x dim < dim := by
  rw [clampCoord_of_pos x h]; omega

theorem extractAdmitted_iff (img : Image) (r c : Nat) (ch : Fin 2) :
    extractAdmitted img r c ch = true ↔ ∀ k : Fin 16, img.sampleOffset r c ch k < img.params.srcLen := by
  simp [extractAdmitted, srcAdmits]

theorem outAdmits_iff (p : Params) (a : Nat) : outAdmits p a = true ↔ a + 8 ≤ p.outCap ∧ a ∉ p.outRefused := by
  simp [outAdmits]

theorem quantizeAdmits_iff (x lo hi : Byte) :
    quantizeAdmits x lo hi = true ↔ lo.toNat < hi.toNat ∧ lo.toNat ≤ x.toNat ∧ x.toNat ≤ hi.toNat := by
  simp only [quantizeAdmits, Bool.and_eq_true, decide_eq_true_eq, and_assoc]

theorem reads_iff (img : Image) (a : Nat) :
    img.reads a = true ↔
      ∃ y, y < img.height ∧ ∃ x, x < img.width ∧ (a = img.texelOffset y x 0 ∨ a = img.texelOffset y x 1) := by
  simp only [Image.reads, List.any_eq_true, List.mem_range, Bool.or_eq_true, beq_iff_eq]

@[simp] theorem getElem_extract (img : Image) (r c : Nat) (ch : Fin 2) (k : Fin 16) :
    (extract img r c ch)[k] = Mem.read img.src (img.sampleOffset r c ch k) := by
  simp [extract]

/-- Lane `k` of CODE after the write of lane `j`. -/
theorem getElem_setCode (s : State) (j k : Fin 16) (c : BitVec 3) :
    (s.setCode j c).code[k] = if k = j then c else s.code[k] := by
  simp only [State.setCode, Fin.getElem_fin, Vector.getElem_set, Fin.ext_iff, eq_comm]

/-! ### The codes as numbers (R59) -/

theorem upcExtract_eq : upcExtract = 0b0010000#7 := by decide
theorem upcEndpts_eq : upcEndpts = 0b0100000#7 := by decide
theorem upcPack_eq : upcPack = 0b1000000#7 := by decide
theorem upcStore_eq : upcStore = 0b1010000#7 := by decide
theorem upcNext_eq : upcNext = 0b1100000#7 := by decide
theorem toNat_upcQuant (k : Fin 16) : (upcQuant k).toNat = 0x30 + k := by revert k; decide

theorem upcOp_upcQuant (k : Fin 16) : upcOp (upcQuant k) = 3#3 := by revert k; decide

/-- After lane `k` the sequencer is at the next lane, or after lane 15 at PACK (R90). -/
theorem toNat_upcAfterLane (k : Fin 16) :
    (upcAfterLane k).toNat = if k.val < 15 then 0x30 + k.val + 1 else 0x40 := by revert k; decide

/-- The word the host reads from STATUS (R18). -/
theorem toNat_statusWord (s : State) : s.statusWord.toNat = s.jobState.bits.toNat + 4 * s.err.bits.toNat := by
  unfold State.statusWord
  generalize s.err.bits = e
  generalize s.jobState.bits = j
  revert e j
  decide

end Sys2Proof.Laws
end

