-- ==== Sys2Proof/Laws/Level.lean ====
section
/-! SUPPORT. What the free choices can be: the samples of a block, the code of a fault, a byte of OUT; and the block of a
slot. -/

namespace Sys2Proof.Laws

open Sys2Proof.Machine

/-! ### Choices among bytes -/

@[simp] theorem pick_singleton (n : Nat) (v : Byte) : pick n [v] = v := rfl

theorem pick_mem (n : Nat) {l : List Byte} (h : l ≠ []) : pick n l ∈ l := by
  match l, h with
  | [v], _ => simp
  | v :: w :: vs, _ =>
    have hn : n % (vs.length + 2) < (v :: w :: vs).length := Nat.mod_lt _ (by simp)
    show (v :: w :: vs).getD (n % (vs.length + 2)) 0 ∈ _
    rw [List.getD_eq_getElem _ _ hn]
    exact List.getElem_mem hn

theorem mem_bytesAt {l : List Host.Cell} {a : Nat} {v : Byte} : v ∈ bytesAt l a ↔ (a, v) ∈ l := by
  simp only [bytesAt, List.mem_map, List.mem_filter, beq_iff_eq, Prod.exists]
  constructor
  · rintro ⟨x, y, ⟨h, rfl⟩, rfl⟩; exact h
  · intro h; exact ⟨a, v, ⟨h, rfl⟩, rfl⟩

@[simp] theorem bytesAt_nil (a : Nat) : bytesAt [] a = [] := rfl

theorem bytesAt_eq_nil {l : List Host.Cell} {a : Nat} : bytesAt l a = [] ↔ ∀ v, (a, v) ∉ l := by
  simp only [List.eq_nil_iff_forall_not_mem, mem_bytesAt]

theorem mem_cellsAt {off a : Nat} {vs : List Byte} {v : Byte} :
    (a, v) ∈ cellsAt off vs ↔ ∃ i, vs[i]? = some v ∧ a = off + i := by
  induction vs generalizing off with
  | nil => simp [cellsAt]
  | cons w vs ih =>
    simp only [cellsAt, List.mem_cons, Prod.mk.injEq, ih]
    constructor
    · rintro (⟨rfl, rfl⟩ | ⟨i, hi, rfl⟩)
      · exact ⟨0, rfl, rfl⟩
      · exact ⟨i + 1, hi, by omega⟩
    · rintro ⟨i, hi, rfl⟩
      cases i with
      | zero => exact .inl ⟨rfl, by simpa using hi.symm⟩
      | succ i => exact .inr ⟨i, hi, by omega⟩

theorem mem_cellsAt_fst {off a : Nat} {vs : List Byte} :
    a ∈ (cellsAt off vs).map Prod.fst ↔ off ≤ a ∧ a < off + vs.length := by
  induction vs generalizing off with
  | nil => simp only [cellsAt, List.map_nil, List.not_mem_nil, List.length_nil, false_iff]; omega
  | cons w vs ih => simp only [cellsAt, List.map_cons, List.mem_cons, ih, List.length_cons]; omega

/-! ### The samples of a block -/

theorem srcBytes_of_not_put {j : Job} {a : Nat} {now : Byte} (h : ∀ v, (a, v) ∉ j.srcPuts) :
    j.srcBytes a now = [now] := by
  simp [Job.srcBytes, bytesAt_eq_nil.2 h]

theorem mem_srcBytes {j : Job} {a : Nat} {now v : Byte} (h : v ∈ j.srcBytes a now) :
    v = now ∨ v = Mem.read j.image.src a ∨ (a, v) ∈ j.srcPuts := by
  unfold Job.srcBytes at h
  split at h
  · exact .inl (List.mem_singleton.1 h)
  · rcases List.mem_cons.1 h with h | h
    · exact .inr (.inl h)
    · exact .inr (.inr (mem_bytesAt.1 h))

theorem srcBytes_ne_nil (j : Job) (a : Nat) (now : Byte) : j.srcBytes a now ≠ [] := by
  unfold Job.srcBytes; split <;> simp

/-- Everything a sample of EXTRACT can be. -/
theorem getElem_sampleBlock (s : State) (k : Fin 16) :
    s.sampleBlock[k] ∈ s.job.srcBytes (s.image.sampleOffset s.trow s.tcol s.ch k)
      (Mem.read s.src (s.image.sampleOffset s.trow s.tcol s.ch k)) := by
  simp only [State.sampleBlock, Fin.getElem_fin, Vector.getElem_ofFn]
  exact pick_mem _ (srcBytes_ne_nil _ _ _)

/-- With no byte put into SRC during the job EXTRACT reads the block of R70. -/
theorem sampleBlock_of_quiet {s : State} (h : s.job.srcPuts = []) :
    s.sampleBlock = extract s.image s.trow s.tcol s.ch := by
  have hb (a : Nat) (now : Byte) : s.job.srcBytes a now = [now] := srcBytes_of_not_put (by simp [h])
  simp only [State.sampleBlock, extract, hb, pick_singleton, image_src]

/-! ### The code of a fault -/

/-- Everything the code of a micro-operation's fault can be (R141). -/
theorem faultCode_cases (s : State) (e : ErrCode) :
    s.faultCode e = e ∨
    ((s.faultCode e = .src ∨ s.faultCode e = .out) ∧ 1 < s.params.workers ∧
      (∃ b ∈ blocks s.image, extractAdmitted s.image b.1 b.2.1 b.2.2 = false) ∧
      ∃ b ∈ blocks s.image, extractAdmitted s.image b.1 b.2.1 b.2.2 = true ∧
        storeAdmitted s.image b.1 b.2.1 b.2.2 = false) := by
  unfold State.faultCode
  split
  · next h =>
    obtain ⟨hw, hs, ho⟩ := h
    simp only [List.any_eq_true, Bool.and_eq_true, Bool.not_eq_true'] at hs ho
    refine .inr ⟨?_, hw, hs, ho⟩
    split <;> simp
  · exact .inl rfl

theorem faultCode_ne_none (s : State) {e : ErrCode} (h : e ≠ .none) : s.faultCode e ≠ .none := by
  rcases faultCode_cases s e with he | ⟨he | he, -⟩ <;> rw [he]
  · exact h
  · exact nofun
  · exact nofun

theorem faultCode_of_one_worker {s : State} (h : s.params.workers ≤ 1) (e : ErrCode) : s.faultCode e = e :=
  if_neg fun hc => absurd hc.1 (Nat.not_lt.2 h)

/-! ### Blocks and slots -/

theorem mem_blocks (img : Image) (b : Nat × Nat × Fin 2) :
    b ∈ blocks img ↔ b.1 < img.tilesY ∧ b.2.1 < img.tilesX := by
  obtain ⟨r, c, ch⟩ := b
  have hch : ch = 0 ∨ ch = 1 := by omega
  simp only [blocks, List.mem_flatMap, List.mem_range, List.mem_cons, List.not_mem_nil, or_false, Prod.mk.injEq]
  constructor
  · rintro ⟨r', hr, c', hc, ⟨rfl, rfl, -⟩ | ⟨rfl, rfl, -⟩⟩ <;> exact ⟨hr, hc⟩
  · rintro ⟨hr, hc⟩
    exact ⟨r, hr, c, hc, hch.imp (fun h => ⟨rfl, rfl, h⟩) fun h => ⟨rfl, rfl, h⟩⟩

theorem storeAdmitted_iff (img : Image) (r c : Nat) (ch : Fin 2) :
    storeAdmitted img r c ch = true ↔
      8 * img.slot r c ch + 8 ≤ img.params.outCap ∧ 8 * img.slot r c ch ∉ img.params.outRefused := outAdmits_iff _ _

/-- The slot of the block of a slot is the slot. -/
theorem slot_blockOfSlot (img : Image) (n : Nat) :
    img.slot (img.blockOfSlot n).1 (img.blockOfSlot n).2.1 (img.blockOfSlot n).2.2 = n := by
  simp only [Image.slot, Image.blockOfSlot, Fin.val_ofNat]
  have := Nat.div_add_mod (n / 2) img.tilesX
  rw [Nat.mul_comm] at this
  omega

/-- The block of a slot of the image's level is a block of the image. -/
theorem blockOfSlot_lt {img : Image} {n : Nat} (h : 8 * n < img.outLen) :
    (img.blockOfSlot n).1 < img.tilesY ∧ (img.blockOfSlot n).2.1 < img.tilesX := by
  have hn : n / 2 < img.tilesX * img.tilesY := by simp only [Image.outLen] at h; omega
  exact ⟨Nat.div_lt_of_lt_mul hn, Nat.mod_lt _ (Nat.pos_of_mul_pos_right (Nat.zero_lt_of_lt hn))⟩

/-- The block of a block's slot is the block. -/
theorem blockOfSlot_slot (img : Image) (r : Nat) {c : Nat} (ch : Fin 2) (hc : c < img.tilesX) :
    img.blockOfSlot (img.slot r c ch) = (r, c, ch) := by
  have h2 : img.slot r c ch / 2 = r * img.tilesX + c := by simp only [Image.slot]; omega
  have hx : 0 < img.tilesX := by omega
  refine Prod.ext ?_ (Prod.ext ?_ (Fin.ext ?_))
  · show img.slot r c ch / 2 / img.tilesX = r
    rw [h2, Nat.mul_comm, Nat.mul_add_div hx, Nat.div_eq_of_lt hc, Nat.add_zero]
  · show img.slot r c ch / 2 % img.tilesX = c
    rw [h2, Nat.mul_comm, Nat.mul_add_mod, Nat.mod_eq_of_lt hc]
  · show img.slot r c ch % 2 = ch
    simp only [Image.slot]; omega

/-! ### The content of OUT -/

/-- Everything the block a job computes for a slot can be. -/
theorem block_eq_some {j : Job} {choose : List Nat → Nat} {n : Nat} {v : BitVec 64} (h : j.block choose n = some v) :
    ∃ x : Vector Byte 16, v = encodeSamples x ∧
      extractAdmitted j.image (j.image.blockOfSlot n).1 (j.image.blockOfSlot n).2.1 (j.image.blockOfSlot n).2.2 = true ∧
      storeAdmitted j.image (j.image.blockOfSlot n).1 (j.image.blockOfSlot n).2.1 (j.image.blockOfSlot n).2.2 = true ∧
      ∀ k : Fin 16, ∀ a, a = j.image.sampleOffset (j.image.blockOfSlot n).1 (j.image.blockOfSlot n).2.1
        (j.image.blockOfSlot n).2.2 k → x[k] ∈ j.srcBytes a (Mem.read j.image.src a) := by
  simp only [Job.block] at h
  split at h
  · next hc =>
    obtain ⟨he, hs⟩ := Bool.and_eq_true_iff.1 hc
    refine ⟨_, (Option.some.inj h).symm, he, hs, fun k a ha => ?_⟩
    subst ha
    simp only [Fin.getElem_fin, Vector.getElem_ofFn]
    exact pick_mem _ (srcBytes_ne_nil _ _ _)
  · cases h

/-- With no byte put into SRC during the job the block of a slot is the one of R115, where its accesses are admitted. -/
theorem block_of_quiet {j : Job} (h : j.srcPuts = []) (choose : List Nat → Nat) (r : Nat) {c : Nat} (ch : Fin 2)
    (hc : c < j.image.tilesX) :
    j.block choose (j.image.slot r c ch) =
      if extractAdmitted j.image r c ch && storeAdmitted j.image r c ch then some (encodeBlock j.image r c ch)
      else none := by
  have hb (a : Nat) (now : Byte) : j.srcBytes a now = [now] := srcBytes_of_not_put (by simp [h])
  simp only [Job.block, blockOfSlot_slot _ r ch hc, encodeBlock, extract, hb, pick_singleton]

theorem stored_eq_some {j : Job} {tick depth n : Nat} {v : BitVec 64} (h : j.stored tick depth n = some v) :
    j.block (fun site => Config.freeChoice tick (3 :: depth :: site)) n = some v := by
  unfold Job.stored at h
  split at h
  · exact h
  · cases h

theorem putAt_of_nil {j : Job} (h : j.outPuts = []) (a : Nat) : j.putAt a = none := by simp [Job.putAt, h]

/-- Where the host has written nothing while the job owned OUT, the level is the content of OUT. -/
theorem levelByte_of_nil {j : Job} (h : j.outPuts = []) (now : Mem) (a : Nat) : levelByte j now a = Mem.read now a := by
  simp [levelByte, putAt_of_nil h]

@[simp] theorem outValue_nil (tick a : Nat) (now : Mem) : outValue tick a now [] = Mem.read now a := rfl

theorem outValue_settled {j : Job} {a : Nat} (h : a ∈ j.settled) (tick : Nat) (now : Mem) (js : List Job) :
    outValue tick a now (j :: js) = Mem.read now a := by simp [outValue, h]

theorem outValue_above {j : Job} {a : Nat} (h : a ∉ j.settled) (ha : j.len ≤ a) (tick : Nat) (now : Mem)
    (js : List Job) : outValue tick a now (j :: js) = outValue tick a now js := by
  rw [outValue, if_neg (by simpa using h), if_neg (by omega)]

theorem outValue_completed {j : Job} {a : Nat} (h : a ∉ j.settled) (ha : a < j.len) (hc : j.completed = true)
    (tick : Nat) (now : Mem) (js : List Job) : outValue tick a now (j :: js) = levelByte j now a := by
  rw [outValue, if_neg (by simpa using h), if_pos ha, if_pos hc]

/-- Under jobs that own no byte, OUT reads as its content. -/
theorem outValue_of_no_job {js : List Job} (h : ∀ j ∈ js, j.len = 0) (tick a : Nat) (now : Mem) :
    outValue tick a now js = Mem.read now a := by
  induction js with
  | nil => rfl
  | cons j js ih =>
    by_cases hs : a ∈ j.settled
    · exact outValue_settled hs tick now js
    · rw [outValue_above hs (by simp [h j (by simp)])]
      exact ih fun i hi => h i (by simp [hi])

/-! ### The host's writes while a job owns OUT -/

theorem find_hostPuts (tick off : Nat) (bytes : List Byte) (a : Nat) :
    (hostPuts tick off bytes).find? (fun p => p.offset == a) =
      if off ≤ a ∧ a < off + bytes.length then
        some ⟨a, bytes.getD (a - off) 0, Config.freeChoice tick [5, a] % 2 == 1⟩
      else none := by
  induction bytes generalizing off with
  | nil => rw [if_neg (by simp)]; rfl
  | cons b bs ih =>
    have ih' := ih (off + 1)
    simp only [hostPuts] at ih' ⊢
    simp only [cellsAt, List.map_cons, List.find?_cons, List.length_cons]
    rcases eq_or_ne off a with rfl | hne
    · simp
    · rw [show (off == a) = false by simpa using hne, ih']
      by_cases hx : off + 1 ≤ a ∧ a < off + 1 + bs.length
      · obtain ⟨n, rfl⟩ : ∃ n, a = off + 1 + n := ⟨a - (off + 1), by omega⟩
        rw [if_pos hx, if_pos (by omega), show off + 1 + n - (off + 1) = n by omega,
          show off + 1 + n - off = n + 1 by omega, List.getD_cons_succ]
      · rw [if_neg hx, if_neg (by omega)]

end Sys2Proof.Laws
end

