-- ==== Sys2Proof/Laws/PerInstr.lean ====
section
/-! SUPPORT. Facts about every instruction as syntax, one lemma per constructor. -/

namespace Sys2Proof.Laws.TableWord

/-- The instruction's number in the opcode table, laid out in the row's one byte, is read back as the instruction
(spec/30_encoding.md R59, R60). -/
def Statement (i : Instr) : Prop := decodeTableWord 8 (codeNumber (encode i)) = some i

theorem extract : Statement .extract := by unfold Statement; decide
theorem endpts : Statement .endpts := by unfold Statement; decide
theorem quant (k : Fin 16) : Statement (.quant k) := by unfold Statement; revert k; decide
theorem pack : Statement .pack := by unfold Statement; decide
theorem store : Statement .store := by unfold Statement; decide
theorem next : Statement .next := by unfold Statement; decide
theorem start : Statement .start := by unfold Statement; decide
theorem reset : Statement .reset := by unfold Statement; decide

end Sys2Proof.Laws.TableWord
end

