-- ==== Sys2Proof/Tests/Slice0.lean ====
section
/-! SUPPORT. Tests: the checks refuse ill-formed values, codes written out from spec/30_encoding.md decode, one or two
vectors of spec/95_test_vectors.md for each instruction, and a witness for the hypotheses of each statement. -/

namespace Sys2Proof.Tests

open Sys2Proof.Machine

/-- What holds of the next state, if there is one. -/
def onNext (o : Host.Outcome State Fault Refusal) (f : State → Bool) : Bool :=
  match o with
  | .next t => f t
  | _ => false

/-- A machine with the given image configured (WIDTH, HEIGHT, STRIDE) and SRC_LEN, OUT_CAP. -/
def configured (w h stride srcLen outCap : Nat) : State :=
  { State.reset with
    width := w, height := h, stride := stride
    params := { Params.default with srcLen := srcLen, outCap := outCap } }

/-- A job of the image running at a position and a micro-operation. -/
def running (w h stride r c : Nat) (ch : Fin 2) (u : BitVec 7) : State :=
  { configured w h stride 1024 1024 with
    jobState := .busy, trow := r, tcol := c, ch := ch, upc := u, lease := true
    job := { Job.empty with
      image := (configured w h stride 1024 1024).image, len := (configured w h stride 1024 1024).outLen } }

/-- Endpoints and one sample in every lane. -/
def quantizing (x lo hi : Byte) : State :=
  { State.reset with blk := Vector.replicate 16 x, minr := lo, maxr := hi }

/-- A machine with one access of the host pending. -/
def pending (s : State) (op : HostOp) : State := { s with inbox := [⟨0, op⟩] }

/-! ### The checks refuse ill-formed values -/

theorem test_upcWellFormed_refuses_op7 : upcWellFormed 0b1110000#7 = false := by decide
theorem test_upcWellFormed_refuses_lane_of_pack : upcWellFormed 0b1000001#7 = false := by decide
theorem test_upcWellFormed_takes_quant_15 : upcWellFormed 0b0111111#7 = true := by decide
theorem test_ctrlWellFormed_refuses : ([0, 3, 4, 5, 257].map ctrlWellFormed) = List.replicate 5 false := by decide
theorem test_params_wellFormed_refuses_no_worker :
    Params.wellFormed { Params.default with workers := 0 } = false := by decide

/-! ### Codes written out from spec/30_encoding.md R59 and R60 -/

theorem test_decode_extract : decodeTableWord 8 0b00010000 = some .extract := by decide
theorem test_decode_endpts : decodeTableWord 8 0b00100000 = some .endpts := by decide
theorem test_decode_quant_0 : decodeTableWord 8 0b00110000 = some (.quant 0) := by decide
theorem test_decode_quant_10 : decodeTableWord 8 0b00111010 = some (.quant 10) := by decide
theorem test_decode_pack : decodeTableWord 8 0b01000000 = some .pack := by decide
theorem test_decode_store : decodeTableWord 8 0b01010000 = some .store := by decide
theorem test_decode_next : decodeTableWord 8 0b01100000 = some .next := by decide
theorem test_decode_start : decodeTableWord 8 0b01 = some .start := by decide
theorem test_decode_reset : decodeTableWord 8 0b10 = some .reset := by decide
theorem test_decode_reserved :
    ([0b00, 0b11, 0b0010001, 0b1110000, 0b10000000].map (decodeTableWord 8)) = List.replicate 5 none := by decide
theorem test_fetch_runs_extract :
    onNext (step (State.reset.withFetchWord 8 0b00010000)) (fun t => t.upc == upcEndpts) = true := by decide
theorem test_fetch_runs_quant :
    onNext (step (State.reset.withFetchWord 8 0b00110111)) (fun t => t.code[7] == 1 && t.upc == upcQuant 8) = true := by
  decide
theorem test_fetch_runs_start :
    onNext (step (State.reset.withFetchWord 8 0b01)) (fun t => t.jobState == .done) = true := by decide

/-! ### Vectors of spec/95_test_vectors.md -/

/-- V-E3: the right edge clamps columns 5, 6, 7 to 4. -/
theorem test_extract_offsets_right_edge :
    (List.finRange 16).map ((running 5 5 24 0 1 0 upcExtract).image.sampleOffset 0 1 0) =
      [16, 16, 16, 16, 40, 40, 40, 40, 64, 64, 64, 64, 88, 88, 88, 88] := by decide

/-- V-E10: with SRC_LEN = 61 channel 0 of the tile is read and channel 1 raises SrcFault, STATUS = 15. -/
theorem test_extract_source_fault :
    onNext (exec .extract { configured 4 4 16 61 16 with jobState := .busy }) (fun t => t.jobState == .busy) &&
    onNext (exec .extract { configured 4 4 16 61 16 with jobState := .busy, ch := 1 })
      (fun t => t.statusWord == 15) = true := by decide

/-- V-N8. -/
theorem test_endpts_vector_8 :
    onNext (exec .endpts { State.reset with
      blk := #v[10, 50, 30, 20, 12, 13, 48, 47, 25, 35, 36, 42, 19, 24, 41, 29] })
      (fun t => t.minr == 10 && t.maxr == 50 && t.den == 40 && t.mult == 717) = true := by decide

/-- V-N4: a uniform block of 255 moves min down. -/
theorem test_endpts_uniform_255 :
    onNext (exec .endpts (quantizing 255 0 0)) (fun t => t.minr == 254 && t.maxr == 255 && t.mult == 28672) = true := by
  decide

/-- V-Q20: the approximation boundary; the exact formula would give code 3. -/
theorem test_quant_boundary_65 :
    onNext (exec (.quant 2) (quantizing 51 0 65)) (fun t => t.code[2] == 2 && t.upc == upcQuant 3) = true := by decide

/-- V-Q12: an exact tie takes the upper index; lane 15 goes on to PACK. -/
theorem test_quant_tie_lane_15 :
    onNext (exec (.quant 15) (quantizing 1 0 2)) (fun t => t.code[15] == 4 && t.upc == upcPack) = true := by decide

/-- V-P10. -/
theorem test_pack_vector_10 :
    pack 255 0 #v[1, 1, 7, 7, 6, 6, 5, 5, 4, 4, 3, 3, 2, 2, 0, 0] = 0x0126E4B76FC900FF := by decide

/-- V-P6: code 5 crosses a byte boundary. -/
theorem test_pack_vector_6 :
    onNext (exec .pack { State.reset with maxr := 200, minr := 100, code := (Vector.replicate 16 0).set 5 7 })
      (fun t => t.packed == 0x00000003800064C8) = true := by decide

/-- The byte order of section 2.5, at the slot of V-S4. -/
theorem test_store_bytes :
    onNext (exec .store { running 5 5 24 1 0 1 upcStore with packed := 0x0126E4B76FC900FF })
      (fun t => Mem.readBytes t.out 40 8 == [0xFF, 0x00, 0xC9, 0x6F, 0xB7, 0xE4, 0x26, 0x01]) = true := by decide

/-- V-S10: the platform refuses the write of slot 1, STATUS = 19 and OUT as before. -/
theorem test_store_refused :
    onNext (exec .store { running 4 4 16 0 0 1 upcStore with
      packed := 1, params := { Params.default with outRefused := [8] } })
      (fun t => t.statusWord == 19 && t.out == []) = true := by decide

/-- Section 2.6: (0, 1, 1) goes to (1, 0, 0). -/
theorem test_next_row :
    onNext (exec .next (running 5 5 24 0 1 1 upcNext))
      (fun t => t.trow == 1 && t.tcol == 0 && t.ch == 0 && t.upc == upcExtract) = true := by decide

/-- Section 2.6: (1, 1, 1) is the last block. -/
theorem test_next_last :
    onNext (exec .next (running 5 5 24 1 1 1 upcNext)) (fun t => t.statusWord == 2 && t.upc == upcNone) = true := by
  decide

/-- V-C1, V-C3. -/
theorem test_start_busy_and_alloc :
    onNext (exec .start (configured 4 4 16 64 16)) (fun t => t.statusWord == 1) &&
    onNext (exec .start (configured 8 8 32 256 63)) (fun t => t.statusWord == 11) = true := by decide

/-- V-C4, V-C6: the configuration check comes first and does not look at HEIGHT. -/
theorem test_start_cfg_first :
    onNext (exec .start (configured 8 8 31 256 63)) (fun t => t.statusWord == 7) &&
    onNext (exec .start (configured 7 0 27 0 0)) (fun t => t.statusWord == 7) = true := by decide

/-- V-C10. -/
theorem test_reset_from_error :
    onNext (exec .reset { configured 4 4 16 64 16 with jobState := .error, err := .src })
      (fun t => t.statusWord == 0 && t.width == 0 && t.outLen == 0) = true := by decide

/-- V-C13: a write to WIDTH is truncated to DIM_BITS. -/
theorem test_write_width_truncates :
    onNext (step (pending State.reset (.writeReg 2 0x12345))) (fun t => t.width == 0x2345) = true := by decide

/-- V-C12: ignored while BUSY. -/
theorem test_write_width_busy :
    onNext (step (pending (running 8 8 32 0 0 0 upcExtract) (.writeReg 2 4))) (fun t => t.width == 8) = true := by decide

/-! ### Witnesses: states and operands that meet the hypotheses of the statements -/

theorem witness_ReservedCodesRejected :
    (0b0000101#7).extractLsb' 4 3 = 0#3 ∧ (0b1110000#7).extractLsb' 4 3 = 7#3 ∧
    ((0b1100001#7).extractLsb' 4 3 ≠ 3#3 ∧ (0b1100001#7).extractLsb' 0 4 ≠ 0#4) ∧ 3 ≠ 1 ∧ 3 ≠ 2 := by decide

theorem witness_StepRunsDecodedInstruction :
    (running 5 5 24 0 0 0 upcPack).jobState = .busy ∧ (running 5 5 24 0 0 0 upcPack).inbox = [] ∧
    decodeUpc (running 5 5 24 0 0 0 upcPack).upc = .ok .pack ∧
    { running 5 5 24 0 0 0 upcPack with inbox := [⟨1, .readReg 1⟩] }.inbox = [⟨0 + 1, .readReg 1⟩] ∧
    (pending (running 5 5 24 0 0 0 upcPack) .waitJob).inbox = [⟨0, .waitJob⟩] ∧
    (pending State.reset (.writeReg 0 1)).inbox = [⟨0, .writeReg 0 1⟩] ∧ decodeCtrl 1 = .ok .start := by
  refine ⟨rfl, rfl, ?_, rfl, rfl, rfl, ?_⟩ <;> rfl

theorem witness_EveryInstructionCompletes :
    ∀ k : Fin 16, State.reset.minr.toNat < State.reset.maxr.toNat ∧
      State.reset.minr.toNat ≤ State.reset.blk[k].toNat ∧ State.reset.blk[k].toNat ≤ State.reset.maxr.toNat := by decide

theorem witness_ExtractReadsTheBlock_admitted :
    1 ≤ (configured 4 4 16 62 16).width ∧ 1 ≤ (configured 4 4 16 62 16).height ∧
    ∀ k : Fin 16, clampedOffset { configured 4 4 16 62 16 with ch := 1 } k < 62 := by decide

theorem witness_ExtractReadsTheBlock_refused :
    ∃ k : Fin 16, 61 ≤ clampedOffset { configured 4 4 16 61 16 with ch := 1 } k := ⟨15, by decide⟩

theorem witness_JobReadsExactlyTheImage :
    0 < (configured 1 1 4 4 16).image.tilesY ∧ 0 < (configured 1 1 4 4 16).image.tilesX ∧
    1 ≤ (configured 1 1 4 4 16).image.width ∧ 1 ≤ (configured 1 1 4 4 16).image.height := by decide

theorem witness_CropKeepsFirstTile :
    4 ≤ (configured 5 4 24 116 64).image.width ∧ 4 ≤ (configured 5 4 24 116 64).image.height := by decide

theorem witness_EndpointsAreAdjustedExtrema :
    isLeast 255 (Vector.replicate 16 (255 : Byte)) ∧ isGreatest 255 (Vector.replicate 16 (255 : Byte)) :=
  ⟨⟨⟨0, rfl⟩, by decide⟩, ⟨⟨0, rfl⟩, by decide⟩⟩

theorem witness_DegenerateBlockLaw :
    (∀ k : Fin 16, (quantizing 255 0 0).blk[k] = 255) ∧ (∀ k : Fin 16, (quantizing 254 0 0).blk[k] = 254) ∧
    ∃ j k : Fin 16, ((quantizing 7 0 0).setBlk ((Vector.replicate 16 7).set 3 9)).blk[j] ≠
      ((quantizing 7 0 0).setBlk ((Vector.replicate 16 7).set 3 9)).blk[k] :=
  ⟨by decide, by decide, 3, 4, by decide⟩

theorem witness_QuantWritesWireCode :
    (quantizing 51 0 65).minr.toNat < (quantizing 51 0 65).maxr.toNat ∧
    (quantizing 51 0 65).minr.toNat ≤ (quantizing 51 0 65).blk[(15 : Fin 16)].toNat ∧
    (quantizing 51 0 65).blk[(15 : Fin 16)].toNat ≤ (quantizing 51 0 65).maxr.toNat := by decide

theorem witness_QuantRefusesOutsidePrecondition :
    ¬((quantizing 66 0 65).minr.toNat < (quantizing 66 0 65).maxr.toNat ∧
      (quantizing 66 0 65).minr.toNat ≤ (quantizing 66 0 65).blk[(0 : Fin 16)].toNat ∧
      (quantizing 66 0 65).blk[(0 : Fin 16)].toNat ≤ (quantizing 66 0 65).maxr.toNat) ∧
    ¬((quantizing 5 5 5).minr.toNat < (quantizing 5 5 5).maxr.toNat) := by decide

theorem witness_WireCodeBoundaryLaw :
    (0 : Byte).toNat < (1 : Byte).toNat ∧ (10 ≤ (12 : Byte).toNat ∧ (12 : Byte).toNat ≤ 12) ∧
    (48 ≤ (48 : Byte).toNat ∧ (48 : Byte).toNat ≤ 50) := by decide

theorem witness_FixedPointAgainstExact : 1 ≤ 2 ∧ 2 ≤ 255 ∧ 1 ≤ 2 ∧ 14 * 1 = (2 * 3 + 1) * 2 := by decide

theorem witness_QuantizerValuesFit : 1 ≤ 255 ∧ 255 ≤ 255 := by decide

theorem witness_LanesCommute :
    quantizeAdmits (quantizing 51 0 65).blk[(0 : Fin 16)] (quantizing 51 0 65).minr (quantizing 51 0 65).maxr = true := by
  decide

theorem witness_PackIsBijective : pack 1 0 (Vector.replicate 16 7) = pack 1 0 (Vector.replicate 16 7) := rfl

theorem witness_StoreWritesItsSlot :
    Mem.wf (running 4 4 16 0 0 1 upcStore).out = true ∧
    ((running 4 4 16 0 0 1 upcStore).slotOffset + 8 ≤ 1024 ∧ (running 4 4 16 0 0 1 upcStore).slotOffset ∉ ([] : List Nat)) ∧
    (configured 4 4 16 64 7).params.outCap < (configured 4 4 16 64 7).slotOffset + 8 := by decide

/-- The reset endpoints bracket the reset samples. -/
theorem reset_bracket : ∀ k : Fin 16, State.reset.minr.toNat ≤ State.reset.blk[k].toNat ∧
    State.reset.blk[k].toNat ≤ State.reset.maxr.toNat := by decide

/-- A running job at any micro-operation, with the endpoints of the block of zeros, meets the invariant. -/
theorem running_inv (u : BitVec 7) (hu : upcWellFormed u = true ∧ upcOp u ≠ 0#3) :
    Inv (running 5 5 24 1 1 1 u) where
  workers := rfl
  srcForm := rfl
  outForm := rfl
  jobForm := fun j hj => by
    rcases List.mem_singleton.1 hj with rfl; exact ⟨rfl, rfl, .inr rfl⟩
  widthFits := by show 5 < 2 ^ 16; decide
  heightFits := by show 5 < 2 ^ 16; decide
  strideFits := by show 24 < 2 ^ 32; decide
  errOnly := by constructor <;> exact nofun
  stopped := fun h => absurd rfl h
  running := fun _ =>
    { upc := hu
      legalStride := by show 20 ≤ 24; decide
      row := by show 1 < ceilDiv 5 4; decide
      col := by show 1 < ceilDiv 5 4; decide
      room := by show ceilDiv 5 4 * ceilDiv 5 4 * 16 ≤ 1024; decide
      job := ⟨rfl, rfl, rfl⟩
      source := fun _ _ => rfl
      endpoints := fun _ =>
        { strict := by show (0 : Byte).toNat < (1 : Byte).toNat; decide
          bracket := reset_bracket
          den := rfl
          mult := by show (28672 : BitVec 15).toNat = ceilDiv 28672 (1 : BitVec 8).toNat; decide } }

theorem pending_inv {s : State} (h : Inv s) (op : HostOp) : Inv (pending s op) :=
  ⟨h.workers, h.srcForm, h.outForm, h.jobForm, h.widthFits, h.heightFits, h.strideFits, h.errOnly, h.stopped, fun hb =>
    let r := h.running hb
    ⟨r.upc, r.legalStride, r.row, r.col, r.room, r.job, r.source, fun hu =>
      let e := r.endpoints hu
      ⟨e.strict, e.bracket, e.den, e.mult⟩⟩⟩

theorem witness_StoreOfAJobIsAdmitted :
    Inv (running 5 5 24 1 1 1 upcStore) ∧ (running 5 5 24 1 1 1 upcStore).jobState = .busy ∧
    (running 5 5 24 1 1 1 upcStore).params.outRefused = [] := ⟨running_inv _ (by decide), rfl, rfl⟩

theorem witness_NextAdvancesThePosition :
    (running 5 5 24 0 0 0 upcNext).ch = 0 ∧ (0 + 1 < (5 + 3) / 4) ∧ ((5 + 3) / 4 ≤ 1 + 1 ∧ 0 + 1 < (5 + 3) / 4) ∧
    (running 5 5 24 1 1 1 upcNext).ch = 1 ∧
    (((running 5 5 24 1 1 1 upcNext).width + 3) / 4 ≤ (running 5 5 24 1 1 1 upcNext).tcol + 1 ∧
      ((running 5 5 24 1 1 1 upcNext).height + 3) / 4 ≤ (running 5 5 24 1 1 1 upcNext).trow + 1) := by decide

theorem witness_StartDecides :
    (configured 4 4 15 64 16).jobState = .idle ∧ (configured 4 4 15 64 16).stride < 4 * (configured 4 4 15 64 16).width ∧
    (configured 4 4 16 64 15).params.outCap < (4 + 3) / 4 * ((4 + 3) / 4) * 16 ∧
    ((configured 0 7 0 0 0).width = 0 ∧ 4 * 0 ≤ (configured 0 7 0 0 0).stride) ∧
    (4 * 1 ≤ (configured 1 1 4 4 16).stride ∧ (1 + 3) / 4 * ((1 + 3) / 4) * 16 ≤ (configured 1 1 4 4 16).params.outCap) ∧
    (running 4 4 16 0 0 0 upcExtract).jobState = .busy := by decide

theorem witness_OnlyTheStatedCausesRaise :
    onNext (exec .start (configured 4 4 15 64 16)) (fun t => t.jobState == .error) = true ∧
    (configured 4 4 15 64 16).jobState ≠ .error := by decide

theorem witness_ErrorIsSticky :
    { configured 4 4 15 64 16 with jobState := .error, err := .cfg }.jobState = .error ∧
    onNext (step { configured 4 4 15 64 16 with jobState := .error, err := .cfg, inbox := [⟨0, .writeReg 0 1⟩] })
      (fun t => t.statusWord == 7) = true ∧
    onNext (step { configured 4 4 15 64 16 with jobState := .error, err := .cfg, inbox := [⟨0, .writeReg 0 2⟩] })
      (fun t => t.statusWord == 0) = true := by decide

theorem witness_StateChangesAreTheTable :
    onNext (step (pending (configured 4 4 16 64 16) (.writeReg 0 1))) (fun t => t.jobState == .busy) = true := by decide

theorem witness_RegisterReads :
    (pending State.reset (.readReg 5)).inbox = [⟨0, .readReg 5⟩] ∧
    (pending State.reset (.readReg 6)).inbox = [⟨0, .readReg 6⟩] := by decide

theorem witness_RegisterWrites :
    (pending State.reset (.writeReg 0 3)).inbox = [⟨0, .writeReg 0 3⟩] ∧ (0 = 0 → 3 ≠ 1 ∧ 3 ≠ 2) ∧
    (pending State.reset (.writeReg 4 9)).inbox = [⟨0, .writeReg 4 9⟩] := by decide

/-- A finished job of 16 bytes with a read of its second slot pending. -/
def finished : State :=
  { pending (configured 4 4 16 64 16) (.getOut 8 8) with
    jobState := .done, job := { Job.empty with image := (configured 4 4 16 64 16).image, len := 16 } }

theorem witness_DoneOutIsReadable :
    finished.inbox = [⟨0, .getOut 8 8⟩] ∧ finished.jobState = .done ∧ finished.lease = false ∧
    8 + 8 ≤ finished.job.len ∧ 8 + 8 ≤ finished.params.outCap ∧ finished.job.outPuts = [] := by decide

/-- R119: a byte of OUT at or above the job's length is plain memory. -/
theorem test_out_above_the_job :
    onNext (step { finished with out := [(20, 5)], params := Params.default, inbox := [⟨0, .getOut 20 1⟩] })
      (fun t => t.replies == [.out 20 [5]]) = true := by decide

/-- R30: the host reads what it has written, above a job that was longer. -/
theorem test_out_host_byte :
    onNext (step { finished with
      out := [(20, 5)], params := Params.default, inbox := [⟨0, .getOut 20 1⟩]
      job := { finished.job with settled := [20] }, earlier := [{ Job.empty with len := 32 }] })
      (fun t => t.replies == [.out 20 [5]]) = true := by decide

theorem witness_HostReadOfOutIsBounded :
    finished.inbox = [⟨0, .getOut 8 8⟩] ∧ 8 + 8 ≤ finished.params.outCap ∧
    ∀ j ∈ finished.job :: finished.earlier, j.len = 0 ∨ j.len = j.image.outLen := by decide

/-- What the first START leaves of the launch of V-C1, with a read of the second slot pending. -/
def launched : State :=
  match exec .start (configured 4 4 16 64 16) with
  | .next t => pending t (.getOut 8 8)
  | _ => State.reset

theorem witness_SlotReadsOldOrNew :
    launched.jobState = .busy ∧ launched.inbox = [⟨0, .getOut 8 8⟩] ∧ 8 + 8 ≤ launched.params.outCap ∧
    ¬(launched.jobState = .done ∧ launched.lease = false) ∧ launched.earlier = [Job.empty] ∧
    (∀ j ∈ launched.earlier, j.len = 0) ∧ launched.job.srcPuts = [] ∧ launched.job.outPuts = [] ∧
    launched.job.settled = [] ∧ launched.job.len = launched.job.image.outLen ∧ 0 < launched.job.image.tilesY ∧
    0 < launched.job.image.tilesX ∧ 8 ≤ 8 * launched.job.image.slot 0 0 1 ∧
    8 * launched.job.image.slot 0 0 1 + 8 ≤ 8 + 8 := by decide

/-- R159: in DONE, once read, the last byte the host wrote stands where it survived, and two reads answer it. -/
theorem test_done_put_survives :
    onNext (step { finished with
      job := { finished.job with outPuts := [⟨8, 7, true⟩, ⟨8, 6, true⟩, ⟨9, 5, false⟩] }
      inbox := [⟨0, .getOut 8 2⟩, ⟨0, .getOut 8 2⟩] })
      (fun t => onNext (step t) fun u => u.replies == [.out 8 [7, 0], .out 8 [7, 0]]) = true := by decide

/-- A running job and a put of two bytes, the second of them a byte of the image. -/
def racing : State := pending (running 5 5 24 1 1 1 upcExtract) (.putSrc 112 [6, 7])

theorem witness_HostPutIntoSource :
    Mem.wf racing.src = true ∧ racing.inbox = [⟨0, .putSrc 112 [6, 7]⟩] ∧ 112 + 2 ≤ racing.params.srcLen ∧
    racing.jobState = .busy ∧ racing.image.reads 113 = true := by decide

/-- R158: a put during a job stops neither the host nor the job. -/
theorem test_put_during_job :
    onNext (step racing) (fun t => onNext (step t) fun u => u.upc == upcEndpts && u.jobState == .busy) = true := by decide

theorem witness_HostPutIntoOut :
    Mem.wf (pending (running 5 5 24 1 1 1 upcExtract) (.putOut 63 [7, 8])).out = true ∧
    (pending (running 5 5 24 1 1 1 upcExtract) (.putOut 63 [7, 8])).inbox = [⟨0, .putOut 63 [7, 8]⟩] ∧
    63 + 2 ≤ (running 5 5 24 1 1 1 upcExtract).params.outCap ∧ (running 5 5 24 1 1 1 upcExtract).lease = true ∧
    63 < (running 5 5 24 1 1 1 upcExtract).job.len ∧ (running 5 5 24 1 1 1 upcExtract).job.len ≤ 64 := by decide

/-- R159: of two bytes across the end of the job's bytes the second is stored, the first kept beside. -/
theorem test_put_out_during_job :
    onNext (step (pending (running 5 5 24 1 1 1 upcExtract) (.putOut 63 [7, 8])))
      (fun t => t.out == [(64, 8)] && t.job.outPuts.map (fun p => (p.offset, p.byte)) == [(63, 7)] && t.job.settled == [64]) = true := by decide

theorem witness_ResetInputAndValues :
    (pending (running 5 5 24 0 0 0 upcExtract) .resetInput).inbox = [⟨0, .resetInput⟩] := by decide

theorem witness_InvariantKeptByEveryStep :
    Inv (running 5 5 24 1 1 1 upcEndpts) ∧
    onNext (step (running 5 5 24 1 1 1 upcEndpts)) (fun t => t.upc == upcQuant 0) = true :=
  ⟨running_inv _ (by decide), by decide⟩

theorem witness_BusyMachineAlwaysMoves :
    Inv (running 5 5 24 1 1 1 (upcQuant 15)) ∧ (running 5 5 24 1 1 1 (upcQuant 15)).jobState = .busy ∧
    (running 5 5 24 1 1 1 (upcQuant 15)).inbox = [] := ⟨running_inv _ (by decide), rfl, rfl⟩

theorem witness_ParametersAreNeverWritten :
    onNext (step State.reset) (fun t => t.params == Params.default) = true := by decide

theorem witness_EncoderNeverWritesSource :
    onNext (step (pending State.reset (.putSrc 3 [7]))) (fun t => t.src != State.reset.src) = true := by decide

theorem witness_EncoderWritesOnlyItsSlot :
    Inv (running 5 5 24 1 1 1 upcStore) ∧
    onNext (step { running 5 5 24 1 1 1 upcStore with packed := 1 }) (fun t => t.out != []) = true :=
  ⟨running_inv _ (by decide), by decide⟩

theorem witness_LevelHoldsEveryBlock :
    Mem.wf [] = true ∧ 1 < (configured 5 5 24 116 64).image.tilesY ∧ 1 < (configured 5 5 24 116 64).image.tilesX ∧
    (configured 5 5 24 116 64).image.outLen ≤ 64 := by decide

theorem witness_ProducibleBlocks :
    (∃ j k : Fin 16, (extract { (configured 4 4 16 64 16).image with src := [(4, 9)] } 0 0 0)[j] ≠
      (extract { (configured 4 4 16 64 16).image with src := [(4, 9)] } 0 0 0)[k]) ∧
    ∀ k : Fin 16, (extract (configured 4 4 16 64 16).image 0 0 0)[k] = 0 := ⟨⟨0, 1, by decide⟩, by decide⟩

theorem witness_BlockOrderIsImmaterial :
    Mem.wf [] = true ∧ ([(0, 0, 1), (0, 0, 0)] : List (Nat × Nat × Fin 2)).Perm
      (blocks (configured 4 4 16 64 16).image) := by decide

/-- A launch of a 4×4 image with stride 16: SRC needs 62 bytes with the default CH_BYTE (V-E10). -/
theorem launch_legal (s : State) (hd : s.jobState = .idle ∨ s.jobState = .done) (he : s.err = .none)
    (hw : s.width = 4) (hh : s.height = 4) (hs : s.stride = 16) (h0 : s.params.chByte0 = 0) (h1 : s.params.chByte1 = 1)
    (hl : 62 ≤ s.params.srcLen) (hc : 16 ≤ s.params.outCap) (hr : s.params.outRefused = [100]) : LegalLaunch s := by
  have hlen : s.outLen = 16 := by
    simp [State.outLen, State.image, Image.outLen, Image.tilesX, Image.tilesY, ceilDiv, hw, hh]
  refine ⟨⟨hd, he, by omega, by omega⟩, ?_, ?_⟩
  · rintro ⟨a, ha, hb⟩
    simp only [Image.reads, List.any_eq_true, List.mem_range, Bool.or_eq_true, beq_iff_eq, Image.texelOffset,
      Params.chByte, State.image, hw, hh, hs, h0, h1] at ha
    obtain ⟨y, hy, x, hx, ha⟩ := ha
    simp at ha
    omega
  · rintro ⟨r, c, ch, hr', hc', h⟩
    simp only [Image.tilesY, Image.tilesX, Image.slot, ceilDiv, State.image, hw, hh, hr, List.mem_singleton] at *
    omega

/-- The launch of V-E10 with SRC_LEN = 62, two bytes short of (HEIGHT-1)*STRIDE + 4*WIDTH, on a platform that refuses
a write outside the level. -/
def shortLaunch : State :=
  { configured 4 4 16 62 16 with params := { Params.default with srcLen := 62, outCap := 16, outRefused := [100] } }

theorem witness_JobReachesDone : LegalLaunch shortLaunch ∧ shortLaunch.inbox = [] :=
  ⟨launch_legal _ (.inl rfl) rfl rfl rfl rfl rfl rfl (by decide) (by decide) rfl, rfl⟩

theorem witness_HostRunsTheJob : LegalLaunch shortLaunch := witness_JobReachesDone.1

theorem witness_EachSlotIsOldOrNew : Accepted shortLaunch ∧ shortLaunch.inbox = [] ∧ Mem.wf shortLaunch.out = true ∧
    0 < shortLaunch.image.tilesY ∧ 0 < shortLaunch.image.tilesX := ⟨witness_JobReachesDone.1.accepted, by decide⟩

/-- The same launch from DONE, over an OUT and a SRC that differ: offset 2 of a texel is never read (R33). -/
def otherLaunch : State :=
  { shortLaunch with jobState := .done, out := [(3, 9)], src := [(2, 7)], earlier := [Job.empty] }

theorem otherLaunch_agrees (a : Nat) (ha : shortLaunch.image.reads a = true) :
    Mem.read otherLaunch.src a = Mem.read shortLaunch.src a := by
  by_cases h2 : a = 2
  · subst h2; exact absurd ha (by decide)
  · show (if a = 2 then _ else _) = _
    rw [if_neg h2]; rfl

theorem witness_LevelDependsOnlyOnTheImage :
    LegalLaunch shortLaunch ∧ LegalLaunch otherLaunch ∧ otherLaunch.inbox = [] ∧ Mem.wf shortLaunch.out = true ∧
    Mem.wf otherLaunch.out = true ∧ sameDims shortLaunch otherLaunch ∧
    ∀ a : Nat, shortLaunch.image.reads a = true → Mem.read otherLaunch.src a = Mem.read shortLaunch.src a :=
  ⟨witness_JobReachesDone.1, launch_legal _ (.inr rfl) rfl rfl rfl rfl rfl rfl (by decide) (by decide) rfl, rfl, rfl,
    by decide, ⟨rfl, rfl, rfl⟩, otherLaunch_agrees⟩

theorem witness_HostLevelDependsOnlyOnTheImage : LegalLaunch shortLaunch ∧ LegalLaunch otherLaunch :=
  ⟨witness_JobReachesDone.1, witness_LevelDependsOnlyOnTheImage.2.1⟩

/-- One access of the launch is refused: a read, or the write of slot 1. -/
theorem witness_RefusedAccessEndsInError :
    Accepted { shortLaunch with params := { shortLaunch.params with srcLen := 61 } } ∧
    someReadRefused { shortLaunch with params := { shortLaunch.params with srcLen := 61 } } ∧
    Accepted { shortLaunch with params := { shortLaunch.params with outRefused := [8] } } ∧
    someWriteRefused { shortLaunch with params := { shortLaunch.params with outRefused := [8] } } :=
  ⟨⟨.inl rfl, rfl, by decide, by decide⟩, ⟨61, by decide⟩, ⟨.inl rfl, rfl, by decide, by decide⟩,
    ⟨0, 0, 1, by decide⟩⟩

/-- No block of the first of these launches raises OutFault, and the second refuses no read. -/
theorem witness_RefusedAccessEndsInError_codes :
    ¬ someOutFault { shortLaunch with params := { shortLaunch.params with srcLen := 61 } } ∧
    ¬ someReadRefused { shortLaunch with params := { shortLaunch.params with outRefused := [8] } } := by
  refine ⟨?_, ?_⟩
  · rintro ⟨r, c, ch, hr, hc, -, h⟩
    obtain ⟨rfl, rfl⟩ : r = 0 ∧ c = 0 := ⟨Nat.lt_one_iff.1 hr, Nat.lt_one_iff.1 hc⟩
    revert h; revert ch; decide
  · exact (witness_JobReachesDone.1.backedSrc ·)

/-- R34: slot 4 of a level of two tile columns is the block of tile (1, 0), channel 0. -/
theorem test_block_of_slot : (configured 8 8 32 256 64).image.blockOfSlot 4 = (1, 0, 0) := by decide

/-- V-E10 and V-S10 in one job with two workers: the fault's code is one of the two (U7). -/
theorem witness_OnlyTheStatedCausesRaise_two_workers :
    onNext (exec .extract { shortLaunch with
      jobState := .busy, ch := 1, params := { shortLaunch.params with srcLen := 61, outRefused := [0], workers := 2 } })
      (fun t => t.jobState == .error) = true := by decide

theorem witness_HostPutsDoNotStopTheJob_source :
    Inv (pending (running 5 5 24 1 1 1 upcPack) (.putSrc 9 [1, 2])) ∧
    (pending (running 5 5 24 1 1 1 upcPack) (.putSrc 9 [1, 2])).jobState = .busy ∧
    (pending (running 5 5 24 1 1 1 upcPack) (.putSrc 9 [1, 2])).inbox = [⟨0, .putSrc 9 [1, 2]⟩] ∧
    9 + 2 ≤ (running 5 5 24 1 1 1 upcPack).params.srcLen :=
  ⟨pending_inv (running_inv _ (by decide)) _, by decide⟩

theorem witness_HostPutsDoNotStopTheJob_out :
    Inv (pending (running 5 5 24 1 1 1 upcPack) (.putOut 9 [1, 2])) ∧
    (pending (running 5 5 24 1 1 1 upcPack) (.putOut 9 [1, 2])).jobState = .busy ∧
    (pending (running 5 5 24 1 1 1 upcPack) (.putOut 9 [1, 2])).inbox = [⟨0, .putOut 9 [1, 2]⟩] ∧
    9 + 2 ≤ (running 5 5 24 1 1 1 upcPack).params.outCap :=
  ⟨pending_inv (running_inv _ (by decide)) _, by decide⟩

theorem witness_WaitEnds :
    (pending finished .waitJob).inbox = [⟨0, .waitJob⟩] ∧ (pending finished .waitJob).jobState = .done ∧
    (pending State.reset .waitJob).inbox = [⟨0, .waitJob⟩] ∧ State.reset.jobState = .idle := by decide

/-- R158, R159: the host's duty ends when it reads STATUS in DONE, and not when it reads another register. -/
theorem test_status_read_ends_lease :
    onNext (step (pending { finished with lease := true } (.readReg 1))) (fun t => t.lease == false) &&
    onNext (step (pending { finished with lease := true } (.readReg 2))) (fun t => t.lease) = true := by decide

end Sys2Proof.Tests
end

/-! PROOFS. What ENDPTS computes from a block: the extrema, the endpoints around them, DEN and MULT
(spec/41_endpoint_selector.md R80 to R83). -/

namespace Sys2Proof.Proofs

open Sys2Proof.Machine Sys2Proof.Laws

theorem le_foldl_min_iff (l : List Byte) (n c : Nat) :
    c ≤ l.foldl (fun m x => min m x.toNat) n ↔ c ≤ n ∧ ∀ x ∈ l, c ≤ x.toNat := by
  induction l generalizing n with
  | nil => simp
  | cons x l ih => simp [ih, and_assoc]

theorem foldl_max_le_iff (l : List Byte) (n c : Nat) :
    l.foldl (fun m x => max m x.toNat) n ≤ c ↔ n ≤ c ∧ ∀ x ∈ l, x.toNat ≤ c := by
  induction l generalizing n with
  | nil => simp
  | cons x l ih => simp [ih, and_assoc]

theorem sample_mem (b : Vector Byte 16) (k : Fin 16) : b[k] ∈ b.toList :=
  Vector.mem_toList_iff.2 (Vector.getElem_mem k.isLt)

/-- The smallest sample is at most every sample (R81). -/
theorem blockMin_le (b : Vector Byte 16) (k : Fin 16) : blockMin b ≤ b[k].toNat :=
  ((le_foldl_min_iff b.toList 255 _).1 le_rfl).2 _ (sample_mem b k)

/-- The largest sample is at least every sample (R81). -/
theorem le_blockMax (b : Vector Byte 16) (k : Fin 16) : b[k].toNat ≤ blockMax b :=
  ((foldl_max_le_iff b.toList 0 _).1 le_rfl).2 _ (sample_mem b k)

theorem blockMax_le (b : Vector Byte 16) : blockMax b ≤ 255 :=
  (foldl_max_le_iff b.toList 0 255).2 ⟨by omega, fun x _ => by have := x.isLt; omega⟩

theorem blockMin_le_blockMax (b : Vector Byte 16) : blockMin b ≤ blockMax b :=
  (blockMin_le b 0).trans (le_blockMax b 0)

/-- The adjustment of R82 makes the endpoints strict, and only moves them apart. -/
theorem adjustEndpoints_spec {lo hi : Nat} (h : lo ≤ hi) (h' : hi ≤ 255) :
    (adjustEndpoints lo hi).1 < (adjustEndpoints lo hi).2 ∧ (adjustEndpoints lo hi).2 ≤ 255 ∧
      (adjustEndpoints lo hi).1 ≤ lo ∧ hi ≤ (adjustEndpoints lo hi).2 := by
  unfold adjustEndpoints
  split
  · split <;> dsimp only <;> omega
  · dsimp only; omega

/-- R83: the endpoints are strict and bracket the extrema. -/
theorem computeEndpoints_spec (b : Vector Byte 16) :
    (computeEndpoints b).1.toNat < (computeEndpoints b).2.toNat ∧
      (computeEndpoints b).1.toNat ≤ blockMin b ∧ blockMax b ≤ (computeEndpoints b).2.toNat := by
  obtain ⟨hlt, hle, hlo, hhi⟩ := adjustEndpoints_spec (blockMin_le_blockMax b) (blockMax_le b)
  simp only [computeEndpoints, BitVec.toNat_ofNat]
  omega

/-- The multiplier of a denominator that is not 0 is at most `7 << 12` (R92), so it fits MULT. -/
theorem multiplier_le {d : Nat} (h : 1 ≤ d) : multiplier d ≤ 28672 := by
  refine Nat.le_of_lt_succ ((Nat.div_lt_iff_lt_mul h).2 ?_)
  show 28672 + d - 1 < 28673 * d
  omega

/-- R80, R83: what ENDPTS writes is ready for QUANT and PACK. -/
theorem endpointsReady_of_execEndpts {s t : State} (h : execEndpts s = .next t) : EndpointsReady t := by
  obtain ⟨hlt, hlo, hhi⟩ := computeEndpoints_spec s.blk
  have hmax := (computeEndpoints s.blk).2.isLt
  have hden : (BitVec.ofNat 8 ((computeEndpoints s.blk).2.toNat - (computeEndpoints s.blk).1.toNat)).toNat =
      (computeEndpoints s.blk).2.toNat - (computeEndpoints s.blk).1.toNat := by
    rw [BitVec.toNat_ofNat]; omega
  have hmult := multiplier_le (Nat.sub_pos_of_lt hlt)
  rw [execEndpts_next h]
  exact
    { strict := hlt
      bracket := fun k => ⟨hlo.trans (blockMin_le s.blk k), (le_blockMax s.blk k).trans hhi⟩
      den := hden
      mult := by
        simp only [setUpc_mult, setUpc_den, setEndpoints_mult, setEndpoints_den, hden, BitVec.toNat_ofNat]
        exact Nat.mod_eq_of_lt (by omega) }

end Sys2Proof.Proofs

/-! PROOFS. What a step leaves unchanged of the parameters, SRC and OUT (spec/10_state.md R22, R25). -/

namespace Sys2Proof.Proofs

open Sys2Proof.Machine Sys2Proof.Laws

/-- An access that is due lands; a WAIT waits for the end of the job. -/
theorem step_of_due {s : State} {op : HostOp} {rest : List HostEvent} (hq : s.inbox = ⟨0, op⟩ :: rest)
    (hw : op = .waitJob → s.jobState ≠ .busy) : step s = hostAccess op { s with inbox := rest } := by
  simp only [step, advance, hq]
  exact if_neg fun h => hw h.1 h.2

/-- No instruction writes the parameters or SRC, and none but STORE writes OUT. -/
theorem exec_frame {i : Instr} {s t : State} (h : exec i s = .next t) :
    t.params = s.params ∧ t.src = s.src ∧
      (t.out = s.out ∨ (i = .store ∧ t.out = Mem.write64 s.out s.slotOffset s.packed)) := by
  cases i with
  | extract => rcases execExtract_next h with ⟨-, rfl⟩ | ⟨-, rfl⟩ <;> simp
  | endpts => rw [execEndpts_next h]; simp
  | quant k => obtain ⟨-, rfl⟩ := execQuant_next h; simp
  | pack => rw [execPack_next h]; simp
  | store => rcases execStore_next h with ⟨-, rfl⟩ | ⟨-, rfl⟩ <;> simp
  | next => rcases execNext_next h with ⟨-, rfl⟩ | ⟨-, -, rfl⟩ | ⟨-, -, -, rfl⟩ | ⟨-, -, -, rfl⟩ <;> simp
  | start =>
    rcases execStart_next h with ⟨-, rfl⟩ | ⟨-, ⟨-, rfl⟩ | ⟨-, -, rfl⟩ | ⟨-, -, -, rfl⟩ | ⟨-, -, -, rfl⟩⟩ <;> simp
  | reset => rw [execReset_next h]; simp

/-- No access of the host writes the parameters, only a put into SRC writes SRC, and only a put into OUT writes OUT. -/
theorem hostAccess_frame {op : HostOp} {s t : State} (h : hostAccess op s = .next t) :
    t.params = s.params ∧ (t.src = s.src ∨ ∃ off bytes, op = .putSrc off bytes) ∧
      (t.out = s.out ∨ ∃ off bytes, op = .putOut off bytes) := by
  cases op with
  | writeReg n v =>
    rcases hostWriteReg_next h with ⟨-, -, h⟩ | ⟨-, -, rfl⟩ | ⟨-, -, -, rfl⟩ | ⟨-, rfl⟩
    · obtain ⟨hp, hs, ho | ⟨hi, -⟩⟩ := exec_frame (i := .start) h
      · exact ⟨hp, .inl hs, .inl ho⟩
      · cases hi
    · simp
    · simp
    · rcases writeDims_cases n v s with e | ⟨-, e | e | e⟩ <;> rw [e] <;> simp
  | readReg n => cases h; simp only [hostReadReg]; split <;> simp [State.pollStatus]
  | putSrc off bytes => obtain ⟨-, rfl⟩ := hostPutSrc_next h; simp
  | putOut off bytes => obtain ⟨-, rfl⟩ := hostPutOut_next h; simp
  | getOut off len => obtain ⟨-, rfl⟩ := hostGetOut_next h; simp
  | waitJob => cases h; simp [State.pollStatus]
  | resetInput => cases h; simp

/-- What a step can do to the parameters, SRC and OUT. -/
theorem step_frame {s t : State} (h : step s = .next t) :
    t.params = s.params ∧ (t.src = s.src ∨ ∃ off bytes rest, s.inbox = ⟨0, .putSrc off bytes⟩ :: rest) ∧
      (t.out = s.out ∨ (∃ off bytes rest, s.inbox = ⟨0, .putOut off bytes⟩ :: rest) ∨
        (s.jobState = .busy ∧ s.upc = upcStore ∧ t.out = Mem.write64 s.out s.slotOffset s.packed)) := by
  rcases step_next h with ⟨q, h⟩ | ⟨op, rest, hq, -, h⟩
  · rcases encoderStep_next h with ⟨hb, h⟩ | ⟨-, rfl⟩
    · obtain ⟨i, hi, h⟩ := issue_next h
      obtain ⟨hp, hs, ho | ⟨rfl, ho⟩⟩ := exec_frame h
      · exact ⟨hp, .inl hs, .inl ho⟩
      · have hu : s.upc = upcStore := by simpa using decodeUpc_eq_ok hi
        exact ⟨hp, .inl hs, .inr (.inr ⟨hb, hu, ho⟩)⟩
    · exact ⟨rfl, .inl rfl, .inl rfl⟩
  · obtain ⟨hp, hs, ho⟩ := hostAccess_frame h
    refine ⟨hp, hs.imp_right ?_, ho.imp_right fun ho => .inl ?_⟩
    · rintro ⟨off, bytes, rfl⟩; exact ⟨off, bytes, rest, hq⟩
    · obtain ⟨off, bytes, rfl⟩ := ho; exact ⟨off, bytes, rest, hq⟩

/-- The slot of a block of the image lies in its level (R34, R108). -/
theorem slot_in_level {img : Image} {r c : Nat} (ch : Fin 2) (hr : r < img.tilesY) (hc : c < img.tilesX) :
    8 * img.slot r c ch + 8 ≤ img.outLen := by
  have hrow : (r + 1) * img.tilesX ≤ img.tilesX * img.tilesY := by
    rw [Nat.mul_comm img.tilesX]; exact Nat.mul_le_mul_right _ hr
  rw [Nat.succ_mul] at hrow
  have hch := ch.isLt
  simp only [Image.slot, Image.outLen]
  omega

/-- Settles O38: by the frame of the step. -/
theorem parametersAreNeverWritten : Obligations.ParametersAreNeverWritten := by
  intro s t h
  exact (step_frame h).1

/-- Settles O39: by the frame of the step. -/
theorem encoderNeverWritesSource : Obligations.EncoderNeverWritesSource := by
  intro s t h hne
  obtain ⟨-, hsrc, -⟩ := step_frame h
  exact hsrc.resolve_left hne

/-- Settles O40: by the frame of the step; the position of a running job is a tile, so its slot lies in the level. -/
theorem encoderWritesOnlyItsSlot : Obligations.EncoderWritesOnlyItsSlot := by
  intro s t hinv h hne
  obtain ⟨-, -, hout⟩ := step_frame h
  rcases hout.resolve_left hne with hput | ⟨hb, hu, hout⟩
  · exact .inl hput
  · have hrun := hinv.running hb
    refine .inr ⟨hb, hu.trans upcStore_eq, slot_in_level s.ch hrun.row hrun.col, fun a ha => ?_⟩
    rw [hout]
    exact read_write64_outside _ _ ha

end Sys2Proof.Proofs

/-! PROOFS. The register port (spec/10_state.md R16 to R21): a read and a write as one update of the state each. -/

namespace Sys2Proof.Proofs

open Sys2Proof.Machine Sys2Proof.Laws

/-- A poll of STATUS touches only the lease, and ends it in DONE and ERROR (R158, R159; log entry 13). -/
theorem pollStatus_eq (s : State) :
    s.pollStatus = { s with lease := if s.jobState = .done ∨ s.jobState = .error then false else s.lease } := by
  unfold State.pollStatus
  cases s.jobState <;> simp

/-- Everything a register read does. -/
theorem hostReadReg_eq (n : Nat) (s : State) :
    hostReadReg n s = { s with
      replies := s.replies ++ [.reg n (s.readReg n)]
      lease := if n = 1 ∧ (s.jobState = .done ∨ s.jobState = .error) then false else s.lease } := by
  by_cases hn : n = 1 <;> simp [hostReadReg, hn, pollStatus_eq]

/-- Everything a write to a register other than CTRL does (R19, R20, R161). -/
theorem writeDims_eq (n v : Nat) (s : State) :
    writeDims n v s = { s with
      width := if n = 2 ∧ s.jobState ≠ .busy then v % 2 ^ s.params.dimBits else s.width
      height := if n = 3 ∧ s.jobState ≠ .busy then v % 2 ^ s.params.dimBits else s.height
      stride := if n = 4 ∧ s.jobState ≠ .busy then v % 2 ^ s.params.strideBits else s.stride } := by
  unfold writeDims
  by_cases hb : s.jobState = .busy
  · have hd : (s.jobState ≠ .busy) = False := eq_false (not_not.2 hb)
    simp only [if_pos hb, hd, and_false, if_false]
  · by_cases h2 : n = 2
    · simp [hb, h2]
    · by_cases h3 : n = 3
      · simp [hb, h3]
      · by_cases h4 : n = 4 <;> simp [hb, h2, h3, h4]

/-- A register write that is no command is the update of the dimensions, which ignores CTRL (R61). -/
theorem hostWriteReg_of_not_command {n v : Nat} (h : n = 0 → v ≠ 1 ∧ v ≠ 2) (s : State) :
    hostWriteReg n v s = .next (writeDims n v s) := by
  unfold hostWriteReg
  split
  · next hn =>
    obtain ⟨h1, h2⟩ := h hn
    simp [decodeCtrl, h1, h2, hn, writeDims]
  · rfl

/-- What each register reads as (R16, R18, R21, R61). -/
theorem readReg_eq (s : State) (n : Nat) :
    s.readReg n =
      if n = 1 then s.jobState.bits.toNat + 4 * s.err.bits.toNat
      else if n = 2 then s.width else if n = 3 then s.height else if n = 4 then s.stride
      else if n = 5 then (s.width + 3) / 4 * ((s.height + 3) / 4) * 16 else 0 := by
  match n with
  | 0 => rfl
  | 1 => exact toNat_statusWord s
  | 2 => rfl
  | 3 => rfl
  | 4 => rfl
  | 5 => rfl
  | n + 6 => simp [State.readReg]

/-- Settles O30: the read is one update of the state, and its value is read off register by register. -/
theorem registerReads : Obligations.RegisterReads := by
  intro s n rest hq
  refine ⟨_, s.readReg n, step_of_due hq nofun, ?_⟩
  rw [hostReadReg_eq]
  refine ⟨rfl, rfl, ?_, rfl, rfl, ⟨rfl, rfl⟩, ⟨rfl, rfl, rfl⟩, ⟨rfl, rfl, rfl⟩, ⟨rfl, ⟨rfl, rfl, rfl, rfl⟩, rfl, rfl⟩,
    fun _ => rfl, fun _ => rfl, rfl, rfl, rfl, rfl⟩
  rw [readReg_eq]
  cases s.jobState <;> cases s.err <;> rfl

/-- Settles O31: the write is one update of the dimensions. -/
theorem registerWrites : Obligations.RegisterWrites := by
  intro s n v rest hq hcmd
  refine ⟨_, (step_of_due hq nofun).trans (hostWriteReg_of_not_command hcmd _), ?_⟩
  rw [writeDims_eq]
  exact ⟨rfl, rfl, rfl, rfl, rfl, ⟨rfl, rfl⟩, ⟨rfl, rfl, rfl⟩, ⟨rfl, ⟨rfl, rfl, rfl, rfl⟩, rfl, rfl⟩,
    fun _ => rfl, fun _ => rfl, rfl, rfl, rfl, rfl, rfl, rfl⟩

end Sys2Proof.Proofs

/-! PROOFS. The invariant of the machine: it holds at reset, each kind of move keeps it, and so does every step. -/

namespace Sys2Proof.Proofs

open Sys2Proof.Machine Sys2Proof.Laws

/-! ### Moves that keep the job

Every micro-operation inside a block, and every access of the host that writes neither memory, leaves STATUS, the
dimensions, SRC, the parameters and what the model keeps of the jobs. Of the invariant there remain the content of OUT and
what UPC asks of the position and the endpoints. -/

/-- STATUS, the image and the jobs are the same. -/
structure SameJob (s t : State) : Prop where
  status : sameStatus s t := by exact ⟨rfl, rfl⟩
  image : t.image = s.image := by rfl
  lease : t.lease = s.lease := by rfl
  job : t.job = s.job := by rfl
  earlier : t.earlier = s.earlier := by rfl

/-- The clauses of `Running` that speak of UPC, the position and the endpoints. -/
structure AtMicroOp (s : State) : Prop where
  upc : upcWellFormed s.upc = true ∧ upcOp s.upc ≠ 0#3
  row : s.trow < s.image.tilesY
  col : s.tcol < s.image.tilesX
  endpoints : 3 ≤ (upcOp s.upc).toNat → EndpointsReady s

theorem endpointsReady_congr {s t : State} (h : EndpointsReady s) (hb : t.blk = s.blk) (he : sameEndpoints s t) :
    EndpointsReady t := by
  obtain ⟨hmin, hmax, hden, hmult⟩ := he
  constructor
  · rw [hmin, hmax]; exact h.strict
  · rw [hmin, hmax, hb]; exact h.bracket
  · rw [hmin, hmax, hden]; exact h.den
  · rw [hmult, hden]; exact h.mult

theorem running_of_sameJob {s t : State} (h : Running s) (hj : SameJob s t) (ht : AtMicroOp t) : Running t := by
  have himg := hj.image
  have hlen : t.outLen = s.outLen := congrArg Image.outLen himg
  have hparams : t.params = s.params := congrArg Image.params himg
  have hsrc : t.src = s.src := congrArg Image.src himg
  have hwidth : t.width = s.width := congrArg Image.width himg
  have hstride : t.stride = s.stride := congrArg Image.stride himg
  exact
    { upc := ht.upc
      legalStride := by rw [hwidth, hstride]; exact h.legalStride
      row := ht.row
      col := ht.col
      room := by rw [hlen, hparams]; exact h.room
      job := by rw [hj.lease, hj.job, hlen, hsrc, himg]; exact h.job
      source := by rw [hj.job, hsrc]; exact h.source
      endpoints := ht.endpoints }

theorem inv_of_sameJob {s t : State} (h : Inv s) (hj : SameJob s t) (hout : Mem.wf t.out = true)
    (hstop : s.jobState ≠ .busy → t.upc = upcNone) (hrun : s.jobState = .busy → AtMicroOp t) : Inv t := by
  obtain ⟨hstate, herr⟩ := hj.status
  have hparams : t.params = s.params := congrArg Image.params hj.image
  have hsrc : t.src = s.src := congrArg Image.src hj.image
  have hwidth : t.width = s.width := congrArg Image.width hj.image
  have hheight : t.height = s.height := congrArg Image.height hj.image
  have hstride : t.stride = s.stride := congrArg Image.stride hj.image
  exact
    { workers := by rw [hparams]; exact h.workers
      srcForm := by rw [hsrc]; exact h.srcForm
      outForm := hout
      jobForm := by rw [hj.job, hj.earlier]; exact h.jobForm
      widthFits := by rw [hwidth, hparams]; exact h.widthFits
      heightFits := by rw [hheight, hparams]; exact h.heightFits
      strideFits := by rw [hstride, hparams]; exact h.strideFits
      errOnly := by rw [herr, hstate]; exact h.errOnly
      stopped := fun hb => hstop (hstate ▸ hb)
      running := fun hb =>
        running_of_sameJob (h.running (hstate ▸ hb)) hj (hrun (hstate ▸ hb)) }

/-- The lists of the host and the counter of the free values are in no clause. -/
theorem inv_hostSide {s : State} (h : Inv s) (q : List HostEvent) (rs : List Reply) (n : Nat) :
    Inv { s with inbox := q, replies := rs, free := n } :=
  inv_of_sameJob h {} h.outForm h.stopped fun hb =>
    let r := h.running hb
    ⟨r.upc, r.row, r.col, fun hu => endpointsReady_congr (r.endpoints hu) rfl ⟨rfl, rfl, rfl, rfl⟩⟩

/-! ### Moves of a machine that is not BUSY, or that stop it -/

/-- Stopping the sequencer, with ERR as the new STATE asks, keeps the invariant. -/
theorem inv_stop {s : State} (h : Inv s) {st : JobState} {e : ErrCode} (hst : st ≠ .busy)
    (he : e ≠ .none ↔ st = .error) : Inv ((s.setStatus st e).setUpc upcNone) where
  __ := h
  errOnly := he
  stopped := fun _ => rfl
  running := fun hb => absurd hb hst

/-- Fault entry (R142) keeps the invariant. -/
theorem inv_raiseFault {s : State} (h : Inv s) {e : ErrCode} (he : e ≠ .none) : Inv (s.raiseFault e) :=
  inv_stop h nofun ⟨fun _ => rfl, fun _ => he⟩

theorem err_of_not_error {s : State} (h : Inv s) (hs : s.jobState ≠ .error) : s.err = .none :=
  not_not.1 fun he => hs (h.errOnly.1 he)

/-- Reaching DONE (R119) keeps the invariant. -/
theorem inv_done {s : State} (h : Inv s) (hs : s.jobState ≠ .error) :
    Inv ((s.setStatus .done s.err).setUpc upcNone) :=
  inv_stop h nofun ⟨fun he => absurd (err_of_not_error h hs) he, nofun⟩

/-- The reset state (R24) meets the invariant whatever the free values are. -/
theorem inv_enterReset {s : State} (h : Inv s) : Inv s.enterReset where
  __ := h
  widthFits := Nat.two_pow_pos _
  heightFits := Nat.two_pow_pos _
  strideFits := Nat.two_pow_pos _
  errOnly := ⟨fun he => absurd rfl he, nofun⟩
  stopped := fun _ => rfl
  running := nofun

/-- Outside BUSY the dimensions may become any values that fit, and the lease may end. -/
theorem inv_setDims {s : State} (h : Inv s) (hb : s.jobState ≠ .busy) {w ht st : Nat} (l : Bool)
    (hw : w < 2 ^ s.params.dimBits) (hh : ht < 2 ^ s.params.dimBits) (hst : st < 2 ^ s.params.strideBits) :
    Inv { s with width := w, height := ht, stride := st, lease := l } where
  __ := h
  widthFits := hw
  heightFits := hh
  strideFits := hst
  running := fun hb' => absurd hb' hb

theorem inv_writeDims {s : State} (h : Inv s) (n v : Nat) : Inv (writeDims n v s) := by
  rcases writeDims_cases n v s with e | ⟨hb, e | e | e⟩ <;> rw [e]
  · exact h
  · exact inv_setDims h hb _ (Nat.mod_lt _ (Nat.two_pow_pos _)) h.heightFits h.strideFits
  · exact inv_setDims h hb _ h.widthFits (Nat.mod_lt _ (Nat.two_pow_pos _)) h.strideFits
  · exact inv_setDims h hb _ h.widthFits h.heightFits (Nat.mod_lt _ (Nat.two_pow_pos _))

theorem pollStatus_of_busy {s : State} (hb : s.jobState = .busy) : s.pollStatus = s := by
  rw [pollStatus_eq, if_neg (by simp [hb])]

/-- A poll ends the lease only outside BUSY. -/
theorem inv_pollStatus {s : State} (h : Inv s) : Inv s.pollStatus := by
  by_cases hb : s.jobState = .busy
  · rw [pollStatus_of_busy hb]; exact h
  · exact inv_setDims h hb _ h.widthFits h.heightFits h.strideFits

theorem inv_hostReadReg {s : State} (h : Inv s) (n : Nat) : Inv (hostReadReg n s) := by
  unfold hostReadReg
  split
  · exact inv_hostSide (inv_pollStatus h) _ _ _
  · exact inv_hostSide h _ _ _

/-! ### START -/

theorem upcExtract_isMicroOp : upcWellFormed upcExtract = true ∧ upcOp upcExtract ≠ 0#3 := by decide

/-- At the start of a block nothing is asked of the endpoints. -/
theorem upcExtract_beforeQuant : ¬ 3 ≤ (upcOp upcExtract).toNat := by decide

/-- The job a START writes down owns no byte of OUT or its image's level. -/
theorem inv_launch {s : State} (h : Inv s) (hb : s.jobState ≠ .busy) {n : Nat} (hn : n = 0 ∨ n = s.outLen) :
    Inv (s.launch n) where
  __ := h
  jobForm := by
    intro j hj
    rw [launch_job, launch_earlier, List.mem_cons, List.mem_cons] at hj
    rcases hj with rfl | rfl | hj
    · exact ⟨h.srcForm, h.outForm, hn⟩
    · exact h.jobForm s.job (by simp)
    · exact h.jobForm j (by simp [hj])
  running := fun hb' => absurd hb' hb

/-- The first block of an image whose level is not empty is one of its tiles. -/
theorem tiles_pos_of_outLen {img : Image} (h : img.outLen ≠ 0) : 0 < img.tilesY ∧ 0 < img.tilesX := by
  simp only [Image.outLen, Nat.mul_ne_zero_iff] at h
  omega

/-- A START that passes its checks (R118) opens a job that meets the invariant. -/
theorem inv_startJob {s : State} (h : Inv s) (hb : s.jobState ≠ .busy) (hstride : 4 * s.width ≤ s.stride)
    (hroom : s.outLen ≤ s.params.outCap) (hlen : s.outLen ≠ 0) :
    Inv (((s.launch s.outLen).setStatus .busy .none).gotoBlock 0 0 0) := by
  have hl := inv_launch h hb (.inr rfl)
  obtain ⟨hrow, hcol⟩ := tiles_pos_of_outLen hlen
  exact
    { hl with
      errOnly := ⟨fun he => absurd rfl he, nofun⟩
      stopped := fun hb' => absurd rfl hb'
      running := fun _ =>
        { upc := upcExtract_isMicroOp
          legalStride := hstride
          row := hrow
          col := hcol
          room := hroom
          job := ⟨rfl, rfl, rfl⟩
          source := fun _ _ => rfl
          endpoints := fun hu => absurd hu upcExtract_beforeQuant } }

theorem inv_execStart {s t : State} (h : Inv s) (hx : execStart s = .next t) : Inv t := by
  rcases execStart_next hx with ⟨-, rfl⟩ | ⟨hs, hx⟩
  · exact h
  · have hb : s.jobState ≠ .busy := by rcases hs with hs | hs <;> rw [hs] <;> exact nofun
    have he : s.jobState ≠ .error := by rcases hs with hs | hs <;> rw [hs] <;> exact nofun
    have hl := inv_launch h hb (.inl rfl)
    rcases hx with ⟨-, rfl⟩ | ⟨-, -, rfl⟩ | ⟨-, -, -, rfl⟩ | ⟨hstride, hroom, hlen, rfl⟩
    · exact inv_raiseFault hl nofun
    · exact inv_raiseFault hl nofun
    · have hd := inv_done hl he
      rwa [← show (s.launch 0).upc = upcNone from h.stopped hb] at hd
    · exact inv_startJob h hb hstride hroom hlen

/-! ### The micro-operations -/

section MicroOps

variable {s t : State} (h : Inv s) (hb : s.jobState = .busy)
include h hb

/-- A micro-operation that stays at its block and in BUSY: OUT stays canonical and UPC asks no more than there is. -/
theorem inv_sameBlock (hj : SameJob s t) (hp : samePosition s t) (hout : Mem.wf t.out = true)
    (u : BitVec 7) (htu : t.upc = u) (hu : upcWellFormed u = true ∧ upcOp u ≠ 0#3)
    (he : 3 ≤ (upcOp u).toNat → EndpointsReady t) : Inv t := by
  subst htu
  obtain ⟨hrow, hcol, -⟩ := hp
  have r := h.running hb
  refine inv_of_sameJob h hj hout (fun hn => absurd hb hn) fun _ => ⟨hu, ?_, ?_, he⟩
  · rw [hrow, hj.image]; exact r.row
  · rw [hcol, hj.image]; exact r.col

theorem inv_execExtract (hx : execExtract s = .next t) : Inv t := by
  rcases execExtract_next hx with ⟨-, rfl⟩ | ⟨-, rfl⟩
  · generalize s.sampleBlock = b
    exact inv_sameBlock h hb {} ⟨rfl, rfl, rfl⟩ h.outForm upcEndpts rfl (by decide) fun hu => absurd hu (by decide)
  · exact inv_raiseFault h (faultCode_ne_none s nofun)

theorem inv_execEndpts (hx : execEndpts s = .next t) : Inv t := by
  have he := endpointsReady_of_execEndpts hx
  obtain ⟨lo, hi, den, mult, rfl⟩ :
      ∃ lo hi den mult, t = (s.setEndpoints lo hi den mult).setUpc (upcQuant 0) := ⟨_, _, _, _, execEndpts_next hx⟩
  exact inv_sameBlock h hb {} ⟨rfl, rfl, rfl⟩ h.outForm (upcQuant 0) rfl (by decide) fun _ => he

theorem inv_execQuant {k : Fin 16} (hu : s.upc = upcQuant k) (hx : execQuant k s = .next t) : Inv t := by
  obtain ⟨c, rfl⟩ : ∃ c, t = (s.setCode k c).setUpc (upcAfterLane k) := ⟨_, (execQuant_next hx).2⟩
  have hready := (h.running hb).endpoints (by rw [hu, upcOp_upcQuant]; decide)
  have hnext : ∀ k, upcWellFormed (upcAfterLane k) = true ∧ upcOp (upcAfterLane k) ≠ 0#3 := by decide
  exact inv_sameBlock h hb {} ⟨rfl, rfl, rfl⟩ h.outForm (upcAfterLane k) rfl (hnext k) fun _ =>
    endpointsReady_congr hready rfl ⟨rfl, rfl, rfl, rfl⟩

theorem inv_execPack (hu : s.upc = upcPack) (hx : execPack s = .next t) : Inv t := by
  have hready := (h.running hb).endpoints (by rw [hu]; decide)
  obtain ⟨v, rfl⟩ : ∃ v, t = (s.setPacked v).setUpc upcStore := ⟨_, execPack_next hx⟩
  exact inv_sameBlock h hb {} ⟨rfl, rfl, rfl⟩ h.outForm upcStore rfl (by decide) fun _ =>
    endpointsReady_congr hready rfl ⟨rfl, rfl, rfl, rfl⟩

theorem inv_execStore (hu : s.upc = upcStore) (hx : execStore s = .next t) : Inv t := by
  have hready := (h.running hb).endpoints (by rw [hu]; decide)
  rcases execStore_next hx with ⟨-, rfl⟩ | ⟨-, rfl⟩
  · have hout := wf_write64 h.outForm s.slotOffset s.packed
    generalize Mem.write64 s.out s.slotOffset s.packed = m at hout ⊢
    exact inv_sameBlock h hb {} ⟨rfl, rfl, rfl⟩ hout upcNext rfl (by decide) fun _ =>
      endpointsReady_congr hready rfl ⟨rfl, rfl, rfl, rfl⟩
  · exact inv_raiseFault h (faultCode_ne_none s nofun)

/-- Going to another block of the image (R116) keeps the invariant. -/
theorem inv_gotoBlock {r c : Nat} (ch : Fin 2) (hr : r < s.image.tilesY) (hc : c < s.image.tilesX) :
    Inv (s.gotoBlock r c ch) :=
  inv_of_sameJob h {} h.outForm (fun hn => absurd hb hn) fun _ =>
    ⟨upcExtract_isMicroOp, hr, hc, fun hu => absurd hu upcExtract_beforeQuant⟩

theorem inv_execNext (hx : execNext s = .next t) : Inv t := by
  have r := h.running hb
  rcases execNext_next hx with ⟨-, rfl⟩ | ⟨-, hc, rfl⟩ | ⟨-, -, hr, rfl⟩ | ⟨-, -, -, rfl⟩
  · exact inv_gotoBlock h hb 1 r.row r.col
  · exact inv_gotoBlock h hb 0 r.row hc
  · exact inv_gotoBlock h hb 0 hr (Nat.zero_lt_of_lt r.col)
  · exact inv_done h (by rw [hb]; exact nofun)

/-- The micro-operation UPC names keeps the invariant. -/
theorem inv_issue (hx : issue s = .next t) : Inv t := by
  obtain ⟨i, hi, hx⟩ := issue_next hx
  rcases decodeUpc_eq_ok hi with ⟨-, rfl⟩ | ⟨-, rfl⟩ | ⟨k, hu, rfl⟩ | ⟨hu, rfl⟩ | ⟨hu, rfl⟩ | ⟨-, rfl⟩
  · exact inv_execExtract h hb hx
  · exact inv_execEndpts h hb hx
  · exact inv_execQuant h hb hu hx
  · exact inv_execPack h hb hu hx
  · exact inv_execStore h hb hu hx
  · exact inv_execNext h hb hx

end MicroOps

/-! ### The host's puts -/

/-- Bytes put into SRC during a job are bytes the job may read (R158). -/
theorem running_putSrc {s : State} (r : Running s) (off : Nat) (bytes : List Byte) :
    Running { s with
      src := Mem.writeBytes s.src off bytes
      job := { s.job with srcPuts := s.job.srcPuts ++ cellsAt off bytes } } := by
  obtain ⟨hlease, hlen, himg⟩ := r.job
  exact
    { r with
      job := ⟨hlease, hlen, congrArg (fun img => { img with src := Mem.writeBytes s.src off bytes }) himg⟩
      source := by
        intro a ha
        have hput : ¬(off ≤ a ∧ a < off + bytes.length) := by
          intro hin
          obtain ⟨c, hc, rfl⟩ := List.mem_map.1 (mem_cellsAt_fst.2 hin)
          exact ha c.2 (List.mem_append_right _ hc)
        calc Mem.read (Mem.writeBytes s.src off bytes) a
            = Mem.read s.src a := read_writeBytes_outside off bytes (by omega)
          _ = Mem.read s.job.image.src a := r.source a fun v hv => ha v (List.mem_append_left _ hv)
      endpoints := fun hu => endpointsReady_congr (r.endpoints hu) rfl ⟨rfl, rfl, rfl, rfl⟩ }

theorem inv_hostPutSrc {s t : State} {off : Nat} {bytes : List Byte} (h : Inv s)
    (hx : hostPutSrc off bytes s = .next t) : Inv t := by
  obtain ⟨-, rfl⟩ := hostPutSrc_next hx
  exact
    { h with
      srcForm := wf_writeBytes h.srcForm off bytes
      jobForm := by
        intro j hj
        rcases List.mem_cons.1 hj with rfl | hj
        · have hjob := h.jobForm s.job (by simp)
          split <;> exact hjob
        · exact h.jobForm j (by simp [hj])
      running := fun hb => by
        have r := running_putSrc (h.running hb) off bytes
        rwa [if_pos hb] }

theorem inv_hostPutOut {s t : State} {off : Nat} {bytes : List Byte} (h : Inv s)
    (hx : hostPutOut off bytes s = .next t) : Inv t := by
  obtain ⟨-, rfl⟩ := hostPutOut_next hx
  exact
    { h with
      outForm := wf_writeBytes h.outForm _ _
      jobForm := by
        intro j hj
        rcases List.mem_cons.1 hj with rfl | hj
        · exact h.jobForm s.job (by simp)
        · exact h.jobForm j (by simp [hj])
      running := fun hb =>
        let r := h.running hb
        { r with
          endpoints := fun hu => endpointsReady_congr (r.endpoints hu) rfl ⟨rfl, rfl, rfl, rfl⟩ } }

/-! ### The step -/

/-- Every access of the host keeps the invariant. -/
theorem inv_hostAccess {op : HostOp} {s t : State} (h : Inv s) (hx : hostAccess op s = .next t) : Inv t := by
  cases op with
  | writeReg n v =>
    rcases hostWriteReg_next hx with ⟨-, -, hx⟩ | ⟨-, -, rfl⟩ | ⟨-, -, -, rfl⟩ | ⟨-, rfl⟩
    · exact inv_execStart h hx
    · exact inv_enterReset h
    · exact h
    · exact inv_writeDims h n v
  | readReg n => cases hx; exact inv_hostReadReg h n
  | putSrc off bytes => exact inv_hostPutSrc h hx
  | putOut off bytes => exact inv_hostPutOut h hx
  | getOut off len => obtain ⟨-, rfl⟩ := hostGetOut_next hx; exact inv_hostSide h _ _ _
  | waitJob => cases hx; exact inv_pollStatus h
  | resetInput => cases hx; exact inv_enterReset h

/-- The encoder's move keeps the invariant. -/
theorem inv_encoderStep {s t : State} (h : Inv s) (hx : encoderStep s = .next t) : Inv t := by
  rcases encoderStep_next hx with ⟨hb, hx⟩ | ⟨-, rfl⟩
  · exact inv_issue h hb hx
  · exact h

/-- Settles O36: the encoder's move and every access of the host keep the invariant. -/
theorem invariantKeptByEveryStep : Obligations.InvariantKeptByEveryStep := by
  intro s t h hx
  rcases step_next hx with ⟨q, hx⟩ | ⟨op, rest, -, -, hx⟩
  · exact inv_encoderStep (inv_hostSide h q _ _) hx
  · exact inv_hostAccess (inv_hostSide h rest _ _) hx

/-- Settles O35: every clause is a fact about the reset values (R24), and the machine is not BUSY. -/
theorem invariantAtReset : Obligations.InvariantAtReset where
  workers := rfl
  srcForm := rfl
  outForm := rfl
  jobForm := by
    intro j hj
    obtain rfl := List.mem_singleton.1 hj
    exact ⟨rfl, rfl, .inl rfl⟩
  widthFits := Nat.two_pow_pos _
  heightFits := Nat.two_pow_pos _
  strideFits := Nat.two_pow_pos _
  errOnly := ⟨fun he => absurd rfl he, nofun⟩
  stopped := fun _ => rfl
  running := nofun

end Sys2Proof.Proofs

/-! PROOFS. The blocks of an image and what they read and write (spec/20_memory.md R33, R34): the SRC offsets, the
slots, and the encoded level of R115 byte for byte. -/

namespace Sys2Proof.Proofs

open Sys2Proof.Machine Sys2Proof.Laws

/-! ### The reads of a job -/

/-- The channel byte is at most R33's largest one. -/
theorem chByte_le_max (p : Params) (ch : Fin 2) : Params.chByte p ch ≤ max p.chByte0.val p.chByte1.val := by
  unfold Params.chByte
  split <;> omega

/-- Of the two channels one samples the later byte of the texel. -/
theorem exists_chByte_eq_max (p : Params) : ∃ ch : Fin 2, Params.chByte p ch = max p.chByte0.val p.chByte1.val := by
  rcases le_total p.chByte0.val p.chByte1.val with h | h
  · exact ⟨1, (max_eq_right h).symm⟩
  · exact ⟨0, (max_eq_left h).symm⟩

/-- Every sample of a block of the image is the channel byte of a texel of the image (R71). -/
theorem sampleOffset_mem_image {img : Image} {r c : Nat} (hr : r < img.tilesY) (hc : c < img.tilesX) (ch : Fin 2)
    (k : Fin 16) : ∃ y x, y < img.height ∧ x < img.width ∧ img.sampleOffset r c ch k = img.texelOffset y x ch := by
  rw [tilesY_eq] at hr
  rw [tilesX_eq] at hc
  exact ⟨_, _, clampCoord_lt _ (by omega), clampCoord_lt _ (by omega), rfl⟩

/-- A coordinate inside the image is the one of its tile and its place in the tile, without clamping. -/
theorem clampCoord_of_lt {y dim j : Nat} (hy : y < dim) (hj : j = y % 4) : clampCoord (4 * (y / 4) + j) dim = y := by
  rw [clampCoord_of_pos _ (by omega)]
  omega

/-- Every channel byte of a texel of the image is a sample of the texel's block. -/
theorem texelOffset_mem_blocks {img : Image} {y x : Nat} (hy : y < img.height) (hx : x < img.width) (ch : Fin 2) :
    ∃ r c k, r < img.tilesY ∧ c < img.tilesX ∧ img.sampleOffset r c ch k = img.texelOffset y x ch := by
  have hrow : img.sampleRow (y / 4) ⟨4 * (y % 4) + x % 4, by omega⟩ = y := clampCoord_of_lt hy (by dsimp only; omega)
  have hcol : img.sampleCol (x / 4) ⟨4 * (y % 4) + x % 4, by omega⟩ = x := clampCoord_of_lt hx (by dsimp only; omega)
  refine ⟨y / 4, x / 4, _, ?_, ?_, by rw [Image.sampleOffset, hrow, hcol]⟩
  · rw [tilesY_eq]; omega
  · rw [tilesX_eq]; omega

/-- R33's bound on the texel offsets of an image. -/
theorem texelOffset_le {img : Image} {y x : Nat} (hy : y < img.height) (hx : x < img.width) (ch : Fin 2) :
    img.texelOffset y x ch ≤ (img.height - 1) * img.stride + 4 * (img.width - 1) +
      max img.params.chByte0.val img.params.chByte1.val := by
  have hrow : y * img.stride ≤ (img.height - 1) * img.stride := Nat.mul_le_mul_right _ (by omega)
  have hch := chByte_le_max img.params ch
  unfold Image.texelOffset
  omega

/-- Settles O7: the samples of the blocks are the channel bytes of the texels, both ways, and the texel of the last row
and column has the largest offset. -/
theorem jobReadsExactlyTheImage : Obligations.JobReadsExactlyTheImage := by
  intro img
  refine ⟨fun a => ⟨?_, ?_⟩, fun r c ch k hr hc => ?_, fun hw hh => ?_⟩
  · rintro ⟨r, c, ch, k, hr, hc, rfl⟩
    obtain ⟨y, x, hy, hx, e⟩ := sampleOffset_mem_image hr hc ch k
    refine ⟨y, x, hy, hx, ?_⟩
    rw [e]
    fin_cases ch
    · exact .inl rfl
    · exact .inr rfl
  · rintro ⟨y, x, hy, hx, rfl | rfl⟩
    · obtain ⟨r, c, k, hr, hc, e⟩ := texelOffset_mem_blocks hy hx 0
      exact ⟨r, c, 0, k, hr, hc, e.symm⟩
    · obtain ⟨r, c, k, hr, hc, e⟩ := texelOffset_mem_blocks hy hx 1
      exact ⟨r, c, 1, k, hr, hc, e.symm⟩
  · obtain ⟨y, x, hy, hx, e⟩ := sampleOffset_mem_image hr hc ch k
    rw [e]
    exact texelOffset_le hy hx ch
  · obtain ⟨ch, hch⟩ := exists_chByte_eq_max img.params
    obtain ⟨r, c, k, hr, hc, e⟩ :=
      texelOffset_mem_blocks (img := img) (Nat.sub_one_lt_of_lt hh) (Nat.sub_one_lt_of_lt hw) ch
    exact ⟨r, c, ch, k, hr, hc, by rw [e, Image.texelOffset, hch]⟩

/-! ### The slots of an image -/

/-- Counting through `n` groups of `m` counts to `n * m`. -/
theorem flatMap_range_eq_range_mul (n m : Nat) :
    ((List.range n).flatMap fun i => (List.range m).map (i * m + ·)) = List.range (n * m) := by
  induction n with
  | zero => simp
  | succ n ih => rw [List.range_succ, List.flatMap_append, ih, Nat.succ_mul, List.range_add]; simp

/-- In the order of the loop the blocks of an image go to the slots 0, 1, 2, ... (R34, R108). -/
theorem map_slot_blocks (img : Image) :
    ((blocks img).map fun b => img.slot b.1 b.2.1 b.2.2) = List.range (2 * (img.tilesX * img.tilesY)) := by
  have hrow (r : Nat) :
      (List.range img.tilesX).flatMap (fun c => [2 * (r * img.tilesX + c), 2 * (r * img.tilesX + c) + 1]) =
        ((List.range img.tilesX).map (r * img.tilesX + ·)).flatMap fun t => (List.range 2).map (t * 2 + ·) := by
    simp [List.flatMap_map, List.range_succ, Nat.mul_comm]
  calc ((blocks img).map fun b => img.slot b.1 b.2.1 b.2.2)
      = (List.range img.tilesY).flatMap fun r => (List.range img.tilesX).flatMap fun c =>
          [2 * (r * img.tilesX + c), 2 * (r * img.tilesX + c) + 1] := by
        simp [blocks, List.map_flatMap, Image.slot]
    _ = ((List.range img.tilesY).flatMap fun r => (List.range img.tilesX).map (r * img.tilesX + ·)).flatMap
          fun t => (List.range 2).map (t * 2 + ·) := by
        simp only [hrow, List.flatMap_assoc]
    _ = List.range (2 * (img.tilesX * img.tilesY)) := by
        rw [flatMap_range_eq_range_mul, flatMap_range_eq_range_mul, Nat.mul_comm, Nat.mul_comm img.tilesY]

theorem nodup_slot_blocks (img : Image) : ((blocks img).map fun b => img.slot b.1 b.2.1 b.2.2).Nodup :=
  map_slot_blocks img ▸ List.nodup_range

theorem length_blocks (img : Image) : (blocks img).length = 2 * (img.tilesX * img.tilesY) := by
  simpa using congrArg List.length (map_slot_blocks img)

/-- Settles O41: the slots are counted through, so there are as many blocks as slots. -/
theorem slotsAreFilledOnceEach : Obligations.SlotsAreFilledOnceEach := by
  intro img
  refine ⟨map_slot_blocks img, ?_, rfl⟩
  rw [length_blocks, Image.outLen]
  omega

/-! ### The encoded level -/

theorem wf_storeBlock (img : Image) {m : Mem} (h : Mem.wf m = true) (b : Nat × Nat × Fin 2) :
    Mem.wf (storeBlock img m b) = true := wf_write64 h _ _

/-- Blocks whose slots do not take in an offset leave its byte. -/
theorem read_storeBlocks_outside (img : Image) {a : Nat} {l : List (Nat × Nat × Fin 2)}
    (h : ∀ b ∈ l, a < 8 * img.slot b.1 b.2.1 b.2.2 ∨ 8 * img.slot b.1 b.2.1 b.2.2 + 8 ≤ a) (m : Mem) :
    Mem.read (l.foldl (storeBlock img) m) a = Mem.read m a := by
  induction l generalizing m with
  | nil => rfl
  | cons b l ih =>
    rw [List.foldl_cons, ih fun b' hb' => h b' (List.mem_cons_of_mem _ hb')]
    exact read_write64_outside _ _ (h b List.mem_cons_self)

/-- Of blocks with different slots each stands in its slot, least significant byte first (R35). -/
theorem read_storeBlocks_inside (img : Image) {l : List (Nat × Nat × Fin 2)}
    (hl : (l.map fun b => img.slot b.1 b.2.1 b.2.2).Nodup) {m : Mem} (hm : Mem.wf m = true)
    {b : Nat × Nat × Fin 2} (hb : b ∈ l) {i : Nat} (hi : i < 8) :
    Mem.read (l.foldl (storeBlock img) m) (8 * img.slot b.1 b.2.1 b.2.2 + i) =
      (encodeBlock img b.1 b.2.1 b.2.2).extractLsb' (8 * i) 8 := by
  induction l generalizing m with
  | nil => cases hb
  | cons b' l ih =>
    obtain ⟨hnot, hl⟩ := List.nodup_cons.1 hl
    rcases List.mem_cons.1 hb with rfl | hb
    · have hother : ∀ d ∈ l, img.slot d.1 d.2.1 d.2.2 ≠ img.slot b.1 b.2.1 b.2.2 :=
        fun d hd e => hnot (List.mem_map.2 ⟨d, hd, e⟩)
      rw [List.foldl_cons, read_storeBlocks_outside img fun d hd => by have := hother d hd; omega]
      exact read_write64_inside hm _ _ hi
    · exact ih hl (wf_storeBlock img hm b') hb

/-- Settles O42: the slots of the blocks differ, and all lie below OUT_LEN. -/
theorem levelHoldsEveryBlock : Obligations.LevelHoldsEveryBlock := by
  intro img m hm
  refine ⟨fun r c ch i hr hc hi => ?_, fun a ha => ?_⟩
  · exact read_storeBlocks_inside img (nodup_slot_blocks img) hm ((mem_blocks img (r, c, ch)).2 ⟨hr, hc⟩) hi
  · refine read_storeBlocks_outside img (fun b hb => .inr ?_) m
    obtain ⟨hr, hc⟩ := (mem_blocks img b).1 hb
    exact (slot_in_level b.2.2 hr hc).trans ha

end Sys2Proof.Proofs

/-! PROOFS. The host's accesses of SRC and OUT that are due (spec/70_reset_and_hazards.md R158 to R160): each is one
update of the state. -/

namespace Sys2Proof.Proofs

open Sys2Proof.Machine Sys2Proof.Laws

/-! ### Reads of OUT -/

theorem levelReadable_iff (s : State) : s.levelReadable = true ↔ s.jobState = .done ∧ s.lease = false := by
  simp [State.levelReadable]

/-- The byte a job that is not completed has stored at an offset of its own is one it may store (R143, R158). -/
theorem jobMayStore_of_stored {j : Job} (hj : j.sized) {tick depth a : Nat} (ha : a < j.len) {v : BitVec 64}
    (hv : j.stored tick depth (a / 8) = some v) : jobMayStore j a (v.extractLsb' (8 * (a % 8)) 8) := by
  have hlen : j.len = j.image.outLen := hj.resolve_left (by omega)
  obtain ⟨hr, hc⟩ := blockOfSlot_lt (img := j.image) (n := a / 8) (by omega)
  obtain ⟨x, rfl, hread, hwrite, hx⟩ := block_eq_some (stored_eq_some hv)
  obtain ⟨hcap, hwilling⟩ := (storeAdmitted_iff _ _ _ _).1 hwrite
  have hslot := slot_blockOfSlot j.image (a / 8)
  refine ⟨_, _, _, a % 8, x, hr, hc, Nat.mod_lt _ (by omega), ?_, (extractAdmitted_iff _ _ _ _).1 hread, hcap, hwilling,
    fun k => ?_, rfl⟩
  · rw [hslot]; omega
  · rcases mem_srcBytes (hx k _ rfl) with h | h | h
    · exact .inl h
    · exact .inl h
    · exact .inr h

/-- What the host reads at an offset of OUT is a byte OUT may hold there (R30, R159, R160). -/
theorem mayHold_outValue (tick a : Nat) {js : List Job} (hjs : ∀ j ∈ js, j.sized) (now : Mem) :
    mayHold a (outValue tick a now js) now js := by
  induction js generalizing now with
  | nil => rfl
  | cons j js ih =>
    obtain ⟨hj, hjs⟩ := List.forall_mem_cons.1 hjs
    unfold mayHold
    by_cases hs : a ∈ j.settled
    · exact .inl ⟨hs, outValue_settled hs tick now js⟩
    · refine .inr ?_
      rcases Nat.lt_or_ge a j.len with ha | ha
      · refine .inr ⟨hs, ha, ?_⟩
        cases hc : j.completed with
        | true => exact .inl ⟨rfl, outValue_completed hs ha hc tick now js⟩
        | false =>
          refine .inr ⟨rfl, ?_⟩
          rw [outValue, if_neg (by simpa using hs), if_pos ha, if_neg (by simp [hc])]
          split
          · next v hv _ => exact .inl (jobMayStore_of_stored hj ha hv)
          · next v p hv hp =>
            split
            · exact .inl (jobMayStore_of_stored hj ha hv)
            · exact .inr (.inl ⟨p, hp, rfl⟩)
          · next p _ hp => exact .inr (.inl ⟨p, hp, rfl⟩)
          · next _ hp => exact .inr (.inr ⟨hp, ih hjs j.before⟩)
      · refine .inl ⟨hs, ha, ?_⟩
        rw [outValue_above hs ha]
        exact ih hjs now

/-- After the host has read DONE a byte of the job is its content, or the byte of the level (R40, R159). -/
theorem outByte_of_readable {s : State} (h : s.levelReadable = true) {a : Nat} (ha : a < s.job.len) :
    s.outByte a = if a ∈ s.job.settled then Mem.read s.out a else levelByte s.job s.out a := by
  split
  · next hs => exact outValue_settled (j := { s.job with completed := s.levelReadable }) hs _ _ _
  · next hs => exact outValue_completed (j := { s.job with completed := s.levelReadable }) hs ha h _ _ _

/-- The bytes a read of OUT answers. -/
def outBytes (s : State) (off len : Nat) : List Byte := (List.range len).map fun i => s.outByte (off + i)

@[simp] theorem length_outBytes (s : State) (off len : Nat) : (outBytes s off len).length = len := by simp [outBytes]

theorem getD_outBytes (s : State) (off : Nat) {len i : Nat} (hi : i < len) :
    (outBytes s off len).getD i 0 = s.outByte (off + i) := by
  simp [outBytes, hi]

/-- Once the level is readable what a read of it answers depends on OUT and the job alone. -/
theorem outBytes_congr {s t : State} (hs : s.levelReadable = true) (ht : t.levelReadable = true) {off len : Nat}
    (hlen : off + len ≤ s.job.len) (hjob : t.job = s.job) (hout : t.out = s.out) :
    outBytes t off len = outBytes s off len := by
  refine List.map_congr_left fun i hi => ?_
  have hi : i < len := List.mem_range.1 hi
  rw [outByte_of_readable hs (by omega), outByte_of_readable ht (by rw [hjob]; omega), hjob, hout]

/-- A due read of backed bytes of OUT is answered, and touches nothing but the host's lists and the counter. -/
theorem step_getOut {s : State} {off len : Nat} {rest : List HostEvent} {bytes : List Byte}
    (hq : s.inbox = ⟨0, .getOut off len⟩ :: rest) (hcap : off + len ≤ s.params.outCap)
    (hbytes : outBytes s off len = bytes) :
    step s = .next { s with inbox := rest, replies := s.replies ++ [.out off bytes], free := s.free + 1 } := by
  subst hbytes
  exact (step_of_due hq nofun).trans (if_neg (Nat.not_lt.2 hcap))

/-- Settles O48: the read is one update of the state, and each byte of the answer is bounded over the jobs. -/
theorem hostReadOfOutIsBounded : Obligations.HostReadOfOutIsBounded := by
  intro s off len rest hq hcap
  refine ⟨_, outBytes s off len, step_getOut hq hcap rfl, rfl, rfl, length_outBytes s off len, fun hsized i hi => ?_,
    rfl, ⟨rfl, rfl⟩, ⟨rfl, rfl, rfl⟩, ⟨rfl, rfl, rfl⟩, ⟨rfl, ⟨rfl, rfl, rfl, rfl⟩, rfl, rfl⟩, fun _ => rfl,
    fun _ => rfl, rfl, rfl, rfl, rfl, rfl⟩
  have hread : decide (s.jobState = .done ∧ s.lease = false) = s.levelReadable := by
    rw [Bool.eq_iff_iff, decide_eq_true_iff, levelReadable_iff]
  obtain ⟨hjob, hearlier⟩ := List.forall_mem_cons.1 hsized
  have hjobs : ∀ j ∈ { s.job with completed := s.levelReadable } :: s.earlier, j.sized :=
    List.forall_mem_cons.2 ⟨hjob, hearlier⟩
  rw [getD_outBytes s off hi, hread]
  exact mayHold_outValue _ _ hjobs s.out

/-- Settles O32: with the level readable the answer does not depend on the counter of the free values. -/
theorem doneOutIsReadable : Obligations.DoneOutIsReadable := by
  intro s off len rest hq hdone hlease hlen hcap
  have hread : s.levelReadable = true := (levelReadable_iff s).2 ⟨hdone, hlease⟩
  have hbytes {i : Nat} (hi : i < len) : (outBytes s off len).getD i 0 =
      if off + i ∈ s.job.settled then Mem.read s.out (off + i) else levelByte s.job s.out (off + i) :=
    (getD_outBytes s off hi).trans (outByte_of_readable hread (by omega))
  refine ⟨_, outBytes s off len, step_getOut hq hcap rfl, rfl, rfl, length_outBytes s off len, fun i hi => hbytes hi,
    fun hputs i hi => ?_, step_getOut rfl hcap ?_, rfl, ⟨rfl, rfl⟩,
    ⟨rfl, rfl, rfl⟩, ⟨rfl, rfl, rfl⟩, ⟨rfl, ⟨rfl, rfl, rfl, rfl⟩, rfl, rfl⟩, fun _ => rfl, fun _ => rfl, rfl, rfl, rfl,
    rfl, rfl⟩
  · rw [hbytes hi, levelByte_of_nil hputs, ite_self]
  · refine outBytes_congr hread ?_ hlen ?_ ?_
    exacts [hread, rfl, rfl]

/-! ### Puts into SRC -/

/-- A due put of backed bytes into SRC is carried out (R158; log entry 13). -/
theorem step_putSrc {s : State} {off : Nat} {bytes : List Byte} {rest : List HostEvent}
    (hq : s.inbox = ⟨0, .putSrc off bytes⟩ :: rest) (hcap : off + bytes.length ≤ s.params.srcLen) :
    step s = .next { s with
      inbox := rest
      src := Mem.writeBytes s.src off bytes
      job := { s.job with
        srcPuts := if s.jobState = .busy then s.job.srcPuts ++ cellsAt off bytes else s.job.srcPuts } } := by
  refine (step_of_due hq nofun).trans ((if_neg (Nat.not_lt.2 hcap)).trans ?_)
  by_cases hb : s.jobState = .busy <;> simp [hb]

/-- Settles O50: the put is one update of the state, and its bytes are kept exactly while the job runs. -/
theorem hostPutIntoSource : Obligations.HostPutIntoSource := by
  intro s off bytes rest hwf hq hcap
  refine ⟨_, step_putSrc hq hcap, rfl, wf_writeBytes hwf off bytes, read_writeBytes hwf off bytes, fun a v => ?_, rfl,
    rfl, rfl, rfl, ⟨rfl, rfl⟩, ⟨rfl, rfl, rfl⟩, ⟨rfl, rfl, rfl⟩, ⟨rfl, ⟨rfl, rfl, rfl, rfl⟩, rfl, rfl⟩, fun _ => rfl,
    rfl, rfl, rfl⟩
  by_cases hb : s.jobState = .busy
  · simp only [hb, if_true, List.mem_append, mem_cellsAt, true_and]
  · simp only [hb, if_false, false_and, or_false]

/-! ### Writes of OUT -/

/-- The offsets of OUT that are the encoder's (R159). -/
theorem lt_ownedLen (s : State) (a : Nat) : a < s.ownedLen ↔ s.lease = true ∧ a < s.job.len := by
  unfold State.ownedLen
  split <;> simp_all

section Split

variable (off n : Nat) (bytes : List Byte)

/-- Of bytes put from `off` on, the first `n - off` are those below `n`. -/
theorem mem_take_span (a : Nat) :
    (off ≤ a ∧ a < off + (bytes.take (n - off)).length) ↔ (off ≤ a ∧ a < off + bytes.length ∧ a < n) := by
  rw [List.length_take]; omega

/-- Of bytes put from `off` on, the others are those at or above `n`. -/
theorem mem_drop_span (a : Nat) :
    (off + (bytes.take (n - off)).length ≤ a ∧
      a < off + (bytes.take (n - off)).length + (bytes.drop (n - off)).length) ↔
    (off ≤ a ∧ a < off + bytes.length ∧ ¬ a < n) := by
  rw [List.length_take, List.length_drop]; omega

theorem getD_take_span {a : Nat} (h : off ≤ a ∧ a < off + bytes.length ∧ a < n) :
    (bytes.take (n - off)).getD (a - off) 0 = bytes.getD (a - off) 0 := by
  rw [List.getD_eq_getElem?_getD, List.getD_eq_getElem?_getD, List.getElem?_take_of_lt (by omega)]

theorem getD_drop_span {a : Nat} (h : off ≤ a ∧ a < off + bytes.length ∧ ¬ a < n) :
    (bytes.drop (n - off)).getD (a - (off + (bytes.take (n - off)).length)) 0 = bytes.getD (a - off) 0 := by
  rw [List.getD_eq_getElem?_getD, List.getD_eq_getElem?_getD, List.getElem?_drop, List.length_take]
  congr 2
  omega

end Split

/-- A due write of backed bytes of OUT is carried out (R159; log entry 13). -/
theorem step_putOut {s : State} {off : Nat} {bytes : List Byte} {rest : List HostEvent}
    (hq : s.inbox = ⟨0, .putOut off bytes⟩ :: rest) (hcap : off + bytes.length ≤ s.params.outCap) :
    step s = .next { s with
      inbox := rest
      out := Mem.writeBytes s.out (off + (bytes.take (s.ownedLen - off)).length) (bytes.drop (s.ownedLen - off))
      job := { s.job with
        outPuts := hostPuts s.free off (bytes.take (s.ownedLen - off)) ++ s.job.outPuts
        settled := (cellsAt (off + (bytes.take (s.ownedLen - off)).length)
          (bytes.drop (s.ownedLen - off))).map Prod.fst ++ s.job.settled }
      free := s.free + 1 } :=
  (step_of_due hq nofun).trans (if_neg (Nat.not_lt.2 hcap))

/-- Settles O51: the bytes below the owned length are kept as puts, the others are written. -/
theorem hostPutIntoOut : Obligations.HostPutIntoOut := by
  intro s off bytes rest hwf hq hcap
  simp only [← lt_ownedLen]
  refine ⟨_, step_putOut hq hcap, rfl, wf_writeBytes hwf _ _, fun a => ?_, fun a ha => ?_, fun a ha => ?_, fun a => ?_,
    rfl, rfl, rfl, rfl, ⟨rfl, rfl⟩, ⟨rfl, rfl, rfl⟩, ⟨rfl, rfl, rfl⟩, ⟨rfl, ⟨rfl, rfl, rfl, rfl⟩, rfl, rfl⟩,
    fun _ => rfl, rfl, rfl, rfl⟩
  · rw [read_writeBytes hwf, if_congr (mem_drop_span off s.ownedLen bytes a) rfl rfl]
    split
    · next h => exact getD_drop_span off s.ownedLen bytes h
    · rfl
  · have hput := find_hostPuts s.free off (bytes.take (s.ownedLen - off)) a
    rw [if_pos ((mem_take_span off s.ownedLen bytes a).2 ha), getD_take_span off s.ownedLen bytes ha] at hput
    exact ⟨_, by rw [Job.putAt, List.find?_append, hput, Option.some_or]⟩
  · rw [Job.putAt, List.find?_append, find_hostPuts, if_neg (mt (mem_take_span off s.ownedLen bytes a).1 ha),
      Option.none_or, Job.putAt]
  · rw [List.mem_append, mem_cellsAt_fst, mem_drop_span off s.ownedLen bytes a, or_comm]

end Sys2Proof.Proofs

/-! PROOFS. The codes of the micro-operations and of the commands (spec/30_encoding.md R59 to R62). -/

namespace Sys2Proof.Proofs

open Sys2Proof.Machine Sys2Proof.Laws

/-- Settles O1: the bits of the table are the encoder's codes, and each of those decodes to its operation. -/
theorem specCodesDecode : Obligations.SpecCodesDecode :=
  ⟨decodeUpc_extract, decodeUpc_endpts, decodeUpc_quant, decodeUpc_pack, decodeUpc_store, decodeUpc_next, rfl, rfl⟩

theorem decode_encode (i : Instr) : decode (encode i) = .ok i := by
  cases i with
  | extract => exact decodeUpc_extract
  | endpts => exact decodeUpc_endpts
  | quant k => exact decodeUpc_quant k
  | pack => exact decodeUpc_pack
  | store => exact decodeUpc_store
  | next => exact decodeUpc_next
  | start => rfl
  | reset => rfl

theorem eq_encode_of_decode {c : Code} {i : Instr} (h : decode c = .ok i) : c = encode i := by
  cases c with
  | upc u =>
    rcases decodeUpc_eq_ok h with ⟨rfl, rfl⟩ | ⟨rfl, rfl⟩ | ⟨k, rfl, rfl⟩ | ⟨rfl, rfl⟩ | ⟨rfl, rfl⟩ | ⟨rfl, rfl⟩ <;> rfl
  | ctrl v => rcases decodeCtrl_eq_ok h with ⟨rfl, rfl⟩ | ⟨rfl, rfl⟩ <;> rfl

/-- Settles O2: over the instructions one way, over the accepted codes of each format the other. -/
theorem decodeEncodeAgree : Obligations.DecodeEncodeAgree :=
  ⟨decode_encode, fun _ _ => eq_encode_of_decode⟩

/-- An accepted code has an operation of R59's table, and a lane only with QUANT (R61). -/
theorem fields_of_decodeUpc {u : BitVec 7} {i : Instr} (h : decodeUpc u = .ok i) :
    upcOp u ≠ 0#3 ∧ upcOp u ≠ 7#3 ∧ (upcOp u = 3#3 ∨ upcLane u = 0#4) := by
  rcases decodeUpc_eq_ok h with ⟨rfl, -⟩ | ⟨rfl, -⟩ | ⟨k, rfl, -⟩ | ⟨rfl, -⟩ | ⟨rfl, -⟩ | ⟨rfl, -⟩
  case inr.inr.inl => rw [upcOp_upcQuant]; exact ⟨by decide, by decide, .inl rfl⟩
  all_goals decide

/-- Settles O3: a code that breaks R61 is not accepted, for accepted codes keep it. -/
theorem reservedCodesRejected : Obligations.ReservedCodesRejected := by
  refine ⟨fun u hu => ?_, fun v h1 h2 => ?_⟩
  · cases h : decodeUpc u with
    | error e => exact ⟨e, rfl⟩
    | ok i =>
      obtain ⟨h0, h7, hlane⟩ := fields_of_decodeUpc h
      rcases hu with hu | hu | ⟨h3, hu⟩
      · exact absurd hu h0
      · exact absurd hu h7
      · exact absurd (hlane.resolve_left h3) hu
  · rw [decodeCtrl, if_neg h1, if_neg h2]

end Sys2Proof.Proofs

/-! PROOFS. A WAIT of the host that is due (spec/30_encoding.md R65). -/

namespace Sys2Proof.Proofs

open Sys2Proof.Machine Sys2Proof.Laws

/-- Settles O55: outside BUSY the wait lands as a poll of STATUS, which touches only the lease. -/
theorem waitEnds : Obligations.WaitEnds := by
  intro s rest hq hb
  refine ⟨_, step_of_due hq fun _ => hb, ?_⟩
  rw [pollStatus_eq]
  exact ⟨rfl, rfl, rfl, rfl, ⟨rfl, rfl⟩, ⟨rfl, rfl, rfl⟩, ⟨rfl, rfl, rfl⟩, ⟨rfl, ⟨rfl, rfl, rfl, rfl⟩, rfl, rfl⟩,
    fun _ => rfl, fun _ => rfl, rfl, rfl, rfl, rfl⟩

end Sys2Proof.Proofs

/-! PROOFS. The quantizer at the two endpoints (spec/42_index_quantizer.md R92 to R97). -/

namespace Sys2Proof.Proofs

open Sys2Proof.Machine Sys2Proof.Laws

/-- The multiplier rounds up (R92): times the denominator it is at least `7 << 12`, by less than the denominator. -/
theorem multiplier_mul_bounds {d : Nat} (h : 1 ≤ d) : 28672 ≤ multiplier d * d ∧ multiplier d * d < 28672 + d := by
  have hdiv := Nat.div_add_mod (28672 + d - 1) d
  have hmod := Nat.mod_lt (28672 + d - 1) h
  have hmul : multiplier d * d = d * ((28672 + d - 1) / d) := Nat.mul_comm _ _
  omega

theorem rampIndex_eq (n d : Nat) : rampIndex n d = (multiplier d * n + 2048) / 4096 := Nat.shiftRight_eq_div_pow _ 12

/-- The smallest sample has ramp index 0. -/
theorem rampIndex_zero (d : Nat) : rampIndex 0 d = 0 := by rw [rampIndex_eq, Nat.mul_zero]

/-- The largest sample has ramp index 7, for every denominator of a byte. -/
theorem rampIndex_self {d : Nat} (h : 1 ≤ d) (h' : d ≤ 255) : rampIndex d d = 7 := by
  obtain ⟨hlo, hhi⟩ := multiplier_mul_bounds h
  rw [rampIndex_eq]
  omega

/-- A sample equal to min has wire code 1 (R97). -/
theorem quantizeCode_min (lo hi : Byte) : quantizeCode lo lo hi = 1 := by
  rw [quantizeCode, Nat.sub_self, rampIndex_zero]
  rfl

/-- A sample equal to max has wire code 0 (R97). -/
theorem quantizeCode_max {lo hi : Byte} (h : lo.toNat < hi.toNat) : quantizeCode hi lo hi = 0 := by
  have hmax := hi.isLt
  rw [quantizeCode, rampIndex_self (by omega) (by omega)]
  rfl

end Sys2Proof.Proofs

/-! PROOFS. The fields of a packed block (spec/43_block_packer.md R105). -/

namespace Sys2Proof.Proofs

open Sys2Proof.Machine Sys2Proof.Laws

theorem getLsbD_field {w : Nat} (v : BitVec w) (pos i : Nat) :
    (field v pos).getLsbD i = (decide (i < 64) && decide (pos ≤ i) && v.getLsbD (i - pos)) := by
  simp only [field, BitVec.getLsbD_shiftLeft, BitVec.getLsbD_setWidth]
  by_cases hi : i < 64
  · have hsub : i - pos < 64 := by omega
    rcases Nat.lt_or_ge i pos with hp | hp
    · simp [hp]
    · simp [hi, hsub, hp, Nat.not_lt.2 hp]
  · simp [hi]

/-- A bit of several fields placed into a value is a bit of the value or of one of them. -/
theorem getLsbD_foldl_or {α : Type} (f : α → BitVec 64) (l : List α) (v : BitVec 64) (i : Nat) :
    (l.foldl (fun v a => v ||| f a) v).getLsbD i = (v.getLsbD i || l.any fun a => (f a).getLsbD i) := by
  induction l generalizing v with
  | nil => simp
  | cons a l ih => rw [List.foldl_cons, ih, BitVec.getLsbD_or, List.any_cons, Bool.or_assoc]

/-- Every bit of a packed block, as a bit of one of its fields. -/
theorem getLsbD_pack (hi lo : Byte) (codes : Vector (BitVec 3) 16) (i : Nat) :
    (pack hi lo codes).getLsbD i = ((field hi 0).getLsbD i || (field lo 8).getLsbD i ||
      (List.finRange 16).any fun k => (field codes[k] (16 + 3 * k.val)).getLsbD i) := by
  rw [pack, getLsbD_foldl_or fun k : Fin 16 => field codes[k] (16 + 3 * k.val), BitVec.getLsbD_or]

theorem getLsbD_field_outside {w : Nat} (v : BitVec w) {pos i : Nat} (h : i < pos ∨ pos + w ≤ i) :
    (field v pos).getLsbD i = false := by
  rw [getLsbD_field]
  rcases h with h | h
  · simp [Nat.not_le.2 h]
  · rw [BitVec.getLsbD_of_ge v _ (by omega), Bool.and_false]

theorem getLsbD_field_inside {w : Nat} (v : BitVec w) {pos j : Nat} (h : pos + j < 64) :
    (field v pos).getLsbD (pos + j) = v.getLsbD j := by
  rw [getLsbD_field]
  simp [h]

/-- Below bit 16 a packed block has no code. -/
theorem getLsbD_pack_of_lt (hi lo : Byte) (codes : Vector (BitVec 3) 16) {i : Nat} (h : i < 16) :
    (pack hi lo codes).getLsbD i = ((field hi 0).getLsbD i || (field lo 8).getLsbD i) := by
  have hnone : ((List.finRange 16).any fun k => (field codes[k] (16 + 3 * k.val)).getLsbD i) = false :=
    List.any_eq_false.2 fun k _ => by rw [getLsbD_field_outside _ (.inl (by omega))]; exact nofun
  rw [getLsbD_pack, hnone, Bool.or_false]

theorem pack_max (hi lo : Byte) (codes : Vector (BitVec 3) 16) : (pack hi lo codes).extractLsb' 0 8 = hi := by
  refine BitVec.eq_of_getLsbD_eq fun j hj => ?_
  have hhi := getLsbD_field_inside hi (pos := 0) (j := j) (by omega)
  rw [BitVec.getLsbD_extractLsb', getLsbD_pack_of_lt _ _ _ (by omega), hhi,
    getLsbD_field_outside lo (.inl (by omega))]
  simp [hj]

theorem pack_min (hi lo : Byte) (codes : Vector (BitVec 3) 16) : (pack hi lo codes).extractLsb' 8 8 = lo := by
  refine BitVec.eq_of_getLsbD_eq fun j hj => ?_
  rw [BitVec.getLsbD_extractLsb', getLsbD_pack_of_lt _ _ _ (by omega), getLsbD_field_outside hi (.inr (by omega)),
    getLsbD_field_inside lo (by omega)]
  simp [hj]

theorem pack_code (hi lo : Byte) (codes : Vector (BitVec 3) 16) (k : Fin 16) :
    (pack hi lo codes).extractLsb' (16 + 3 * k.val) 3 = codes[k] := by
  refine BitVec.eq_of_getLsbD_eq fun j hj => ?_
  have hlanes : ((List.finRange 16).any fun l => (field codes[l] (16 + 3 * l.val)).getLsbD (16 + 3 * k.val + j)) =
      codes[k].getLsbD j := by
    rw [← getLsbD_field_inside codes[k] (pos := 16 + 3 * k.val) (j := j) (by omega), Bool.eq_iff_iff, List.any_eq_true]
    refine ⟨fun ⟨l, _, hl⟩ => ?_, fun h => ⟨k, List.mem_finRange k, h⟩⟩
    by_cases hlk : l = k
    · exact hlk ▸ hl
    · rw [getLsbD_field_outside _ (by omega)] at hl
      cases hl
  rw [BitVec.getLsbD_extractLsb', getLsbD_pack, getLsbD_field_outside hi (.inr (by omega)),
    getLsbD_field_outside lo (.inr (by omega)), hlanes]
  simp [hj]

end Sys2Proof.Proofs

/-! PROOFS. The blocks the encoder produces (spec/30_encoding.md R63). -/

namespace Sys2Proof.Proofs

open Sys2Proof.Machine Sys2Proof.Laws

/-! ### The extrema are samples -/

theorem exists_eq_blockMin (b : Vector Byte 16) : ∃ k : Fin 16, b[k].toNat = blockMin b := by
  by_contra hnone
  have hlt (k : Fin 16) : blockMin b < b[k].toNat := lt_of_le_of_ne (blockMin_le b k) fun h => hnone ⟨k, h.symm⟩
  have hall : ∀ x ∈ b.toList, blockMin b + 1 ≤ x.toNat := by
    intro x hx
    obtain ⟨k, hk, rfl⟩ := Vector.mem_iff_getElem.1 (Vector.mem_toList_iff.1 hx)
    exact hlt ⟨k, hk⟩
  have h0 := hlt 0
  have h255 : blockMin b + 1 ≤ 255 := by have := b[(0 : Fin 16)].isLt; omega
  exact Nat.not_succ_le_self _ ((le_foldl_min_iff b.toList 255 _).2 ⟨h255, hall⟩)

theorem exists_eq_blockMax (b : Vector Byte 16) : ∃ k : Fin 16, b[k].toNat = blockMax b := by
  by_contra hnone
  have hlt (k : Fin 16) : b[k].toNat < blockMax b := lt_of_le_of_ne (le_blockMax b k) fun h => hnone ⟨k, h⟩
  have hall : ∀ x ∈ b.toList, x.toNat ≤ blockMax b - 1 := by
    intro x hx
    obtain ⟨k, hk, rfl⟩ := Vector.mem_iff_getElem.1 (Vector.mem_toList_iff.1 hx)
    exact Nat.le_sub_one_of_lt (hlt ⟨k, hk⟩)
  have h0 := hlt 0
  have hmax := (foldl_max_le_iff b.toList 0 (blockMax b - 1)).2 ⟨by omega, hall⟩
  change blockMax b ≤ blockMax b - 1 at hmax
  omega

/-- A block of equal samples has no other extrema. -/
theorem extrema_of_uniform {b : Vector Byte 16} {v : Byte} (h : ∀ k : Fin 16, b[k] = v) :
    blockMin b = v.toNat ∧ blockMax b = v.toNat := by
  obtain ⟨j, hj⟩ := exists_eq_blockMin b
  obtain ⟨k, hk⟩ := exists_eq_blockMax b
  exact ⟨by rw [← hj, h j], by rw [← hk, h k]⟩

theorem blockMin_lt_blockMax {b : Vector Byte 16} (h : ∃ j k : Fin 16, b[j] ≠ b[k]) : blockMin b < blockMax b := by
  obtain ⟨j, k, hjk⟩ := h
  have hne : b[j].toNat ≠ b[k].toNat := fun e => hjk (BitVec.eq_of_toNat_eq e)
  have := blockMin_le b j
  have := le_blockMax b j
  have := blockMin_le b k
  have := le_blockMax b k
  omega

/-! ### The endpoints (R82) -/

theorem computeEndpoints_of_uniform {b : Vector Byte 16} {v : Byte} (h : ∀ k : Fin 16, b[k] = v) :
    computeEndpoints b = if v = 255 then (254, 255) else (v, v + 1) := by
  obtain ⟨hmin, hmax⟩ := extrema_of_uniform h
  have hadj : ∀ v : Byte, (BitVec.ofNat 8 (adjustEndpoints v.toNat v.toNat).1,
      BitVec.ofNat 8 (adjustEndpoints v.toNat v.toNat).2) = if v = 255 then (254, 255) else (v, v + 1) := by decide
  rw [computeEndpoints, hmin, hmax]
  exact hadj v

/-- In a block that is not uniform both endpoints are samples. -/
theorem endpoints_are_samples {b : Vector Byte 16} (h : ∃ j k : Fin 16, b[j] ≠ b[k]) :
    (∃ j : Fin 16, b[j] = (computeEndpoints b).1) ∧ ∃ k : Fin 16, b[k] = (computeEndpoints b).2 := by
  obtain ⟨j, hj⟩ := exists_eq_blockMin b
  obtain ⟨k, hk⟩ := exists_eq_blockMax b
  have hadj : adjustEndpoints (blockMin b) (blockMax b) = (blockMin b, blockMax b) :=
    if_neg (blockMin_lt_blockMax h).ne
  have hends : computeEndpoints b = (b[j], b[k]) := by
    rw [computeEndpoints, hadj, ← hj, ← hk, BitVec.ofNat_toNat, BitVec.ofNat_toNat, BitVec.setWidth_eq,
      BitVec.setWidth_eq]
  rw [hends]
  exact ⟨⟨j, rfl⟩, k, rfl⟩

/-! ### The encoded block -/

theorem encodeSamples_max (b : Vector Byte 16) : (encodeSamples b).extractLsb' 0 8 = (computeEndpoints b).2 :=
  pack_max _ _ _

theorem encodeSamples_min (b : Vector Byte 16) : (encodeSamples b).extractLsb' 8 8 = (computeEndpoints b).1 :=
  pack_min _ _ _

theorem encodeSamples_code (b : Vector Byte 16) (k : Fin 16) :
    (encodeSamples b).extractLsb' (16 + 3 * k.val) 3 =
      quantizeCode b[k] (computeEndpoints b).1 (computeEndpoints b).2 := by
  rw [encodeSamples, pack_code]
  simp

/-- In a uniform block every sample is the min endpoint, or for samples of 255 the max endpoint (R82). -/
theorem quantizeCode_of_uniform {b : Vector Byte 16} {v : Byte} (h : ∀ k : Fin 16, b[k] = v) (k : Fin 16) :
    quantizeCode b[k] (computeEndpoints b).1 (computeEndpoints b).2 = if v = 255 then 0 else 1 := by
  rw [h k, computeEndpoints_of_uniform h]
  split
  · next hv => subst hv; exact quantizeCode_max (by decide)
  · exact quantizeCode_min v (v + 1)

/-- Settles O43: the fields of the block are its endpoints and codes; in a block that is not uniform the endpoints are
samples, and these have the codes 1 and 0. -/
theorem producibleBlocks : Obligations.ProducibleBlocks := by
  intro img r c ch
  unfold encodeBlock
  generalize extract img r c ch = b
  have hlt := (computeEndpoints_spec b).1
  refine ⟨by rw [encodeSamples_min, encodeSamples_max]; exact hlt, fun hne => ?_, fun v hv k => ?_⟩
  · obtain ⟨⟨j, hj⟩, k, hk⟩ := endpoints_are_samples hne
    refine ⟨⟨j, ?_⟩, k, ?_⟩
    · rw [encodeSamples_code, hj, quantizeCode_min]
    · rw [encodeSamples_code, hk, quantizeCode_max hlt]
  · rw [encodeSamples_code, quantizeCode_of_uniform hv k]

end Sys2Proof.Proofs

/-! PROOFS. Runs of a BUSY machine while the host leaves it alone: the micro-operations follow one another
(spec/44_block_encoder.md R117). -/

namespace Sys2Proof.Proofs

open Sys2Proof.Machine Sys2Proof.Laws

/-! ### Runs -/

theorem runSteps_succ {s t : State} (h : step s = .next t) (n : Nat) : runSteps (n + 1) s = runSteps n t := by
  simp only [runSteps, h]

theorem runSteps_add {m : Nat} {s t : State} (h : runSteps m s = .next t) (n : Nat) :
    runSteps (m + n) s = runSteps n t := by
  induction m generalizing s with
  | zero => cases h; rw [Nat.zero_add]
  | succ m ih =>
    cases hs : step s with
    | next u =>
      rw [runSteps_succ hs] at h
      rw [Nat.succ_add, runSteps_succ hs]
      exact ih h
    | fault f => simp [runSteps, hs] at h
    | refused r => simp [runSteps, hs] at h

/-- `n` steps lead from `s` to `t`, and the machine is BUSY before each of them. -/
structure BusyRun (n : Nat) (s t : State) : Prop where
  reaches : runSteps n s = .next t
  busy : ∀ m, m < n → ∃ v, runSteps m s = .next v ∧ v.jobState = .busy

theorem BusyRun.refl (s : State) : BusyRun 0 s s := ⟨rfl, nofun⟩

theorem BusyRun.of_step {s t : State} (hb : s.jobState = .busy) (h : step s = .next t) : BusyRun 1 s t where
  reaches := runSteps_succ h 0
  busy := fun m hm => ⟨s, by rw [Nat.lt_one_iff.1 hm]; rfl, hb⟩

theorem BusyRun.trans {m n : Nat} {s t u : State} (h : BusyRun m s t) (h' : BusyRun n t u) :
    BusyRun (m + n) s u where
  reaches := (runSteps_add h.reaches n).trans h'.reaches
  busy := fun i hi => by
    rcases Nat.lt_or_ge i m with him | him
    · exact h.busy i him
    · obtain ⟨j, rfl⟩ := Nat.exists_eq_add_of_le him
      rw [runSteps_add h.reaches]
      exact h'.busy j (by omega)

/-! ### A job the host leaves alone -/

/-- The host has nothing pending, or waits for the end of the job. -/
def HostWaits (s : State) : Prop := s.inbox = [] ∨ ∃ rest, s.inbox = ⟨0, .waitJob⟩ :: rest

/-- A job runs, the host waits, and it has put nothing into SRC since START. -/
structure Undisturbed (s : State) : Prop where
  busy : s.jobState = .busy
  waits : HostWaits s
  quiet : s.job.srcPuts = []

/-- A BUSY machine issues while the host waits: a WAIT stays pending (R65). -/
theorem step_of_hostWaits {s : State} (hb : s.jobState = .busy) (hw : HostWaits s) : step s = issue s := by
  rcases hw with hq | ⟨rest, hq⟩
  · exact step_of_busy hq hb
  · simp [step, advance, hq, hb]

theorem busyRun_of_exec {s t : State} (hs : Undisturbed s) {i : Instr} (hi : decodeUpc s.upc = .ok i)
    (h : exec i s = .next t) : BusyRun 1 s t :=
  .of_step hs.busy (by rw [step_of_hostWaits hs.busy hs.waits, issue, hi]; exact h)

/-- STATUS, the image, the jobs and the host's lists are the same. -/
structure SameLaunch (s t : State) : Prop extends SameJob s t where
  inbox : t.inbox = s.inbox := by rfl
  replies : t.replies = s.replies := by rfl

theorem SameLaunch.trans {s t u : State} (h : SameLaunch s t) (h' : SameLaunch t u) : SameLaunch s u where
  status := ⟨h'.status.1.trans h.status.1, h'.status.2.trans h.status.2⟩
  image := h'.image.trans h.image
  lease := h'.lease.trans h.lease
  job := h'.job.trans h.job
  earlier := h'.earlier.trans h.earlier
  inbox := h'.inbox.trans h.inbox
  replies := h'.replies.trans h.replies

theorem SameLaunch.outLen {s t : State} (h : SameLaunch s t) : t.outLen = s.outLen := congrArg Image.outLen h.image

theorem Undisturbed.congr {s t : State} (hs : Undisturbed s) (h : SameLaunch s t) : Undisturbed t where
  busy := h.status.1.trans hs.busy
  waits := by rw [HostWaits, h.inbox]; exact hs.waits
  quiet := by rw [h.job]; exact hs.quiet

/-! ### One block -/

theorem exec_extract_admitted {s : State} (h : extractAdmitted s.image s.trow s.tcol s.ch = true) :
    exec .extract s = .next ((s.setBlk s.sampleBlock).setUpc upcEndpts) := if_pos h

theorem exec_quant_ready {s : State} (h : EndpointsReady s) (k : Fin 16) :
    exec (.quant k) s = .next ((s.setCode k (quantizeCode s.blk[k] s.minr s.maxr)).setUpc (upcAfterLane k)) := by
  have hadm : quantizeAdmits s.blk[k] s.minr s.maxr = true := (quantizeAdmits_iff _ _ _).2 ⟨h.strict, h.bracket k⟩
  rw [exec, execQuant, quantize, if_pos hadm]

theorem busyRun_lane {s : State} {k : Fin 16} (hs : Undisturbed s) (hr : EndpointsReady s) (hu : s.upc = upcQuant k) :
    BusyRun 1 s ((s.setCode k (quantizeCode s.blk[k] s.minr s.maxr)).setUpc (upcAfterLane k)) :=
  busyRun_of_exec hs (by rw [hu, decodeUpc_quant]) (exec_quant_ready hr k)

/-- UPC after `n` lanes: the lane `n`, and PACK after all of them. -/
def upcOfLane (n : Nat) : BitVec 7 := if h : n < 16 then upcQuant ⟨n, h⟩ else upcPack

theorem upcAfterLane_eq (k : Fin 16) : upcAfterLane k = upcOfLane (k.val + 1) := by revert k; decide

/-- The QUANT of the first `n` lanes write the wire codes of their samples (R90). -/
theorem busyRun_lanes {s : State} (hs : Undisturbed s) (hr : EndpointsReady s) (hu : s.upc = upcQuant 0) {n : Nat}
    (hn : n ≤ 16) :
    ∃ codes : Vector (BitVec 3) 16, BusyRun n s { s with code := codes, upc := upcOfLane n } ∧
      ∀ j : Fin 16, j.val < n → codes[j] = quantizeCode s.blk[j] s.minr s.maxr := by
  induction n with
  | zero => exact ⟨s.code, by rw [show upcOfLane 0 = s.upc from hu.symm]; exact .refl s, nofun⟩
  | succ n ih =>
    obtain ⟨codes, hrun, hcodes⟩ := ih (by omega)
    have hlane := busyRun_lane (s := { s with code := codes, upc := upcOfLane n }) (k := ⟨n, hn⟩) (hs.congr {})
      (endpointsReady_congr hr rfl ⟨rfl, rfl, rfl, rfl⟩) (dif_pos hn)
    rw [upcAfterLane_eq] at hlane
    refine ⟨_, hrun.trans hlane, fun j hj => ?_⟩
    rw [getElem_setCode]
    split
    · next hjn => rw [hjn]
    · next hjn => exact hcodes j (Nat.lt_of_le_of_ne (Nat.le_of_lt_succ hj) fun e => hjn (Fin.ext e))

/-- The position and OUT are the same too. -/
structure SameBlock (s t : State) : Prop extends SameLaunch s t where
  position : samePosition s t := by exact ⟨rfl, rfl, rfl⟩
  out : t.out = s.out := by rfl

theorem SameBlock.trans {s t u : State} (h : SameBlock s t) (h' : SameBlock t u) : SameBlock s u where
  toSameLaunch := h.toSameLaunch.trans h'.toSameLaunch
  position := by
    obtain ⟨hr, hc, hch⟩ := h.position
    obtain ⟨hr', hc', hch'⟩ := h'.position
    exact ⟨hr'.trans hr, hc'.trans hc, hch'.trans hch⟩
  out := h'.out.trans h.out

/-- EXTRACT reads the block (R70). -/
theorem busyRun_extract {s : State} (hs : Undisturbed s) (hu : s.upc = upcExtract)
    (hread : extractAdmitted s.image s.trow s.tcol s.ch = true) :
    ∃ t, BusyRun 1 s t ∧ SameBlock s t ∧ t.upc = upcEndpts ∧ t.blk = extract s.image s.trow s.tcol s.ch := by
  have hrun := busyRun_of_exec hs (by rw [hu, decodeUpc_extract]) (exec_extract_admitted hread)
  rw [sampleBlock_of_quiet hs.quiet] at hrun
  generalize extract s.image s.trow s.tcol s.ch = b at hrun ⊢
  exact ⟨_, hrun, {}, rfl, rfl⟩

/-- ENDPTS selects the endpoints (R80). -/
theorem busyRun_endpts {s : State} (hs : Undisturbed s) (hu : s.upc = upcEndpts) :
    ∃ t, BusyRun 1 s t ∧ SameBlock s t ∧ t.upc = upcQuant 0 ∧ t.blk = s.blk ∧
      t.minr = (computeEndpoints s.blk).1 ∧ t.maxr = (computeEndpoints s.blk).2 ∧ EndpointsReady t := by
  obtain ⟨t, ht⟩ : ∃ t, execEndpts s = .next t := ⟨_, rfl⟩
  have hrun := busyRun_of_exec (i := .endpts) hs (by rw [hu, decodeUpc_endpts]) ht
  have hready := endpointsReady_of_execEndpts ht
  obtain rfl := execEndpts_next ht
  generalize computeEndpoints s.blk = e at hrun hready ⊢
  exact ⟨_, hrun, {}, rfl, rfl, rfl, rfl, hready⟩

/-- The 16 QUANT and PACK assemble the block (R90, R105). -/
theorem busyRun_pack {s : State} (hs : Undisturbed s) (hu : s.upc = upcQuant 0) (hr : EndpointsReady s) :
    ∃ t, BusyRun 17 s t ∧ SameBlock s t ∧ t.upc = upcStore ∧
      t.packed = pack s.maxr s.minr (Vector.ofFn fun k : Fin 16 => quantizeCode s.blk[k] s.minr s.maxr) := by
  obtain ⟨codes, hlanes, hcodes⟩ := busyRun_lanes hs hr hu le_rfl
  have heq : codes = Vector.ofFn fun k : Fin 16 => quantizeCode s.blk[k] s.minr s.maxr :=
    Vector.ext fun i hi => by rw [Vector.getElem_ofFn]; exact hcodes ⟨i, hi⟩ hi
  have hpack := busyRun_of_exec (i := .pack) (hs.congr (t := { s with code := codes, upc := upcOfLane 16 }) {})
    decodeUpc_pack rfl
  have hrun := hlanes.trans hpack
  rw [← heq]
  dsimp only at hrun
  generalize pack s.maxr s.minr codes = v at hrun ⊢
  exact ⟨_, hrun, {}, rfl, rfl⟩

/-- From EXTRACT to STORE: PACKED is the block of R115. -/
theorem busyRun_to_store {s : State} (hs : Undisturbed s) (hu : s.upc = upcExtract)
    (hread : extractAdmitted s.image s.trow s.tcol s.ch = true) :
    ∃ t, BusyRun 19 s t ∧ SameBlock s t ∧ t.upc = upcStore ∧ t.packed = encodeBlock s.image s.trow s.tcol s.ch := by
  obtain ⟨a, hextract, hsa, hua, hblk⟩ := busyRun_extract hs hu hread
  have ha := hs.congr hsa.toSameLaunch
  obtain ⟨b, hendpts, hab, hub, hblk', hmin, hmax, hready⟩ := busyRun_endpts ha hua
  obtain ⟨t, hpack, hbt, hut, hpacked⟩ := busyRun_pack (ha.congr hab.toSameLaunch) hub hready
  refine ⟨t, (hextract.trans hendpts).trans hpack, (hsa.trans hab).trans hbt, hut, ?_⟩
  rw [hpacked, hmin, hmax, hblk', hblk]
  rfl

theorem exec_store_admitted {s : State} (h : storeAdmitted s.image s.trow s.tcol s.ch = true) :
    exec .store s = .next ((s.setOut (Mem.write64 s.out s.slotOffset s.packed)).setUpc upcNext) := if_pos h

/-- From EXTRACT to NEXT: the block of R115 stands in its slot, and nothing else of OUT is changed. -/
theorem busyRun_block {s : State} (hs : Undisturbed s) (hu : s.upc = upcExtract)
    (hread : extractAdmitted s.image s.trow s.tcol s.ch = true)
    (hwrite : storeAdmitted s.image s.trow s.tcol s.ch = true) :
    ∃ t, BusyRun 20 s t ∧ SameLaunch s t ∧ samePosition s t ∧ t.upc = upcNext ∧
      t.out = storeBlock s.image s.out (s.trow, s.tcol, s.ch) := by
  obtain ⟨a, hrun, hsa, hua, hpacked⟩ := busyRun_to_store hs hu hread
  obtain ⟨hr, hc, hch⟩ := hsa.position
  have hstore := busyRun_of_exec (hs.congr hsa.toSameLaunch) (by rw [hua, decodeUpc_store])
    (exec_store_admitted (by rw [hsa.image, hr, hc, hch]; exact hwrite))
  rw [State.slotOffset, hsa.image, hr, hc, hch, hsa.out, hpacked] at hstore
  generalize hm : Mem.write64 s.out _ _ = m at hstore
  exact ⟨_, hrun.trans hstore, hsa.toSameLaunch.trans {}, ⟨hr, hc, hch⟩, rfl, hm.symm⟩

/-! ### The blocks of an image one after another -/

/-- In the order of the loop the blocks of an image are those of the slots 0, 1, 2, ... (R108). -/
theorem blocks_eq_map_blockOfSlot (img : Image) :
    blocks img = (List.range (2 * (img.tilesX * img.tilesY))).map img.blockOfSlot := by
  rw [← map_slot_blocks, List.map_map]
  calc blocks img = (blocks img).map id := (List.map_id _).symm
    _ = _ := List.map_congr_left fun b hb => (blockOfSlot_slot img b.1 b.2.2 ((mem_blocks img b).1 hb).2).symm

/-- OUT after the blocks of the first `n` slots of an image. -/
def storeSlots (img : Image) (out : Mem) (n : Nat) : Mem :=
  ((List.range n).map img.blockOfSlot).foldl (storeBlock img) out

theorem storeSlots_succ (img : Image) (out : Mem) (n : Nat) :
    storeSlots img out (n + 1) = storeBlock img (storeSlots img out n) (img.blockOfSlot n) := by
  simp [storeSlots, List.range_succ]

theorem encodeLevel_eq_storeSlots (img : Image) (out : Mem) :
    encodeLevel img out = storeSlots img out (2 * (img.tilesX * img.tilesY)) := by
  rw [encodeLevel, storeSlots, blocks_eq_map_blockOfSlot]

/-- The position is the block of slot `n`. -/
def AtSlot (s : State) (n : Nat) : Prop := (s.trow, s.tcol, s.ch) = s.image.blockOfSlot n

theorem AtSlot.slot_eq {s : State} {n : Nat} (h : AtSlot s n) : s.image.slot s.trow s.tcol s.ch = n := by
  have hslot := slot_blockOfSlot s.image n
  rwa [← h] at hslot

/-- A slot of the level is at a tile of the image. -/
theorem AtSlot.tile {s : State} {n : Nat} (h : AtSlot s n) (hn : 8 * n < s.outLen) :
    s.trow < s.image.tilesY ∧ s.tcol < s.image.tilesX := by
  have hlt := blockOfSlot_lt (img := s.image) hn
  rwa [← h] at hlt

/-- NEXT goes to the block of the next slot, and after the last slot of the level to DONE (R116). -/
theorem exec_next_at_slot {s : State} {n : Nat} (h : AtSlot s n) (hn : 8 * n < s.outLen) :
    (8 * (n + 1) < s.outLen ∧ ∃ r c ch, exec .next s = .next (s.gotoBlock r c ch) ∧
        (r, c, ch) = s.image.blockOfSlot (n + 1)) ∨
      (s.outLen = 8 * (n + 1) ∧ exec .next s = .next ((s.setStatus .done s.err).setUpc upcNone)) := by
  obtain ⟨hr, hc⟩ := h.tile hn
  have hslot := h.slot_eq
  obtain ⟨t, ht⟩ : ∃ t, execNext s = .next t := by unfold execNext; (repeat' split) <;> exact ⟨_, rfl⟩
  have hgo {r c : Nat} {ch : Fin 2} (hr : r < s.image.tilesY) (hc : c < s.image.tilesX)
      (hs : s.image.slot r c ch = n + 1) (ht' : t = s.gotoBlock r c ch) :
      8 * (n + 1) < s.outLen ∧ ∃ r c ch, exec .next s = .next (s.gotoBlock r c ch) ∧
        (r, c, ch) = s.image.blockOfSlot (n + 1) := by
    have hlevel : 8 * s.image.slot r c ch + 8 ≤ s.outLen := slot_in_level ch hr hc
    exact ⟨by omega, r, c, ch, ht' ▸ ht, by rw [← hs, blockOfSlot_slot s.image r ch hc]⟩
  have hrow : (s.trow + 1) * s.image.tilesX = s.trow * s.image.tilesX + s.image.tilesX := Nat.succ_mul _ _
  simp only [Image.slot] at hslot hgo
  rcases execNext_next ht with ⟨h0, e⟩ | ⟨h1, hc', e⟩ | ⟨h1, hc', hr', e⟩ | ⟨h1, hc', hr', e⟩
  · exact .inl (hgo hr hc (by rw [← hslot, h0]; rfl) e)
  · exact .inl (hgo hr hc' (by rw [Fin.val_zero]; omega) e)
  · exact .inl (hgo hr' (by omega) (by rw [Fin.val_zero]; omega) e)
  · have hlen : s.outLen = s.image.tilesX * (s.trow + 1) * 16 := by
      rw [State.outLen, Image.outLen, show s.image.tilesY = s.trow + 1 by omega]
    rw [Nat.mul_comm s.image.tilesX, hrow] at hlen
    exact .inr ⟨by omega, e ▸ ht⟩

/-- Every access of the image's blocks is admitted. -/
def AllAdmitted (img : Image) : Prop :=
  ∀ r c ch, r < img.tilesY → c < img.tilesX → extractAdmitted img r c ch = true ∧ storeAdmitted img r c ch = true

/-- The 20 micro-operations that encode the block of slot `n` (R115). -/
theorem busyRun_slot {s : State} {n : Nat} (hs : Undisturbed s) (hadm : AllAdmitted s.image) (hu : s.upc = upcExtract)
    (h : AtSlot s n) (hn : 8 * n < s.outLen) :
    ∃ t, BusyRun 20 s t ∧ SameLaunch s t ∧ t.upc = upcNext ∧ AtSlot t n ∧
      t.out = storeBlock s.image s.out (s.image.blockOfSlot n) := by
  obtain ⟨hr, hc⟩ := h.tile hn
  obtain ⟨hread, hwrite⟩ := hadm _ _ s.ch hr hc
  obtain ⟨t, hrun, hst, ⟨er, ec, ech⟩, hut, hout⟩ := busyRun_block hs hu hread hwrite
  refine ⟨t, hrun, hst, hut, ?_, h ▸ hout⟩
  rw [AtSlot, er, ec, ech, hst.image]
  exact h

/-- The blocks of the first `n` slots: 21 micro-operations each (R117). -/
theorem busyRun_slots {s : State} (hs : Undisturbed s) (hadm : AllAdmitted s.image) (hu : s.upc = upcExtract)
    (h0 : AtSlot s 0) {n : Nat} (hn : 8 * n < s.outLen) :
    ∃ t, BusyRun (21 * n) s t ∧ SameLaunch s t ∧ t.upc = upcExtract ∧ AtSlot t n ∧
      t.out = storeSlots s.image s.out n := by
  induction n with
  | zero => exact ⟨s, .refl s, {}, hu, h0, rfl⟩
  | succ n ih =>
    obtain ⟨a, hrun, hsa, hua, hat, hout⟩ := ih (by omega)
    have hna : 8 * n < a.outLen := by rw [hsa.outLen]; omega
    obtain ⟨b, hblock, hab, hub, hbt, hout'⟩ := busyRun_slot (hs.congr hsa) (hsa.image ▸ hadm) hua hat hna
    have hsb := hsa.trans hab
    rcases exec_next_at_slot hbt (by rw [hab.outLen]; exact hna) with ⟨-, r, c, ch, hnext, hpos⟩ | ⟨hlast, -⟩
    · have hgo := busyRun_of_exec (hs.congr hsb) (by rw [hub, decodeUpc_next]) hnext
      refine ⟨_, (hrun.trans hblock).trans hgo, hsb.trans {}, rfl, hpos, ?_⟩
      rw [gotoBlock_out, hout', hsa.image, hout, storeSlots_succ]
    · rw [hsb.outLen] at hlast
      omega

/-- What a job leaves that reaches DONE (R119, R124): its level in OUT, and nothing else of the launch changed. -/
structure JobDone (s t : State) : Prop where
  state : t.jobState = .done
  err : t.err = s.err
  image : t.image = s.image
  inbox : t.inbox = s.inbox
  replies : t.replies = s.replies
  job : t.job = s.job
  out : t.out = encodeLevel s.image s.out

/-- From the first block to DONE: 42 micro-operations a tile (R117). -/
theorem busyRun_level {s : State} (hs : Undisturbed s) (hadm : AllAdmitted s.image) (hu : s.upc = upcExtract)
    (h0 : AtSlot s 0) (hlen : s.outLen ≠ 0) : ∃ t, BusyRun (jobSteps s) s t ∧ JobDone s t := by
  have hslots : s.outLen = 8 * (2 * (s.image.tilesX * s.image.tilesY)) := by rw [State.outLen, Image.outLen]; omega
  obtain ⟨n, hn⟩ : ∃ n, 2 * (s.image.tilesX * s.image.tilesY) = n + 1 := Nat.exists_eq_succ_of_ne_zero (by omega)
  have hsteps : jobSteps s = 21 * n + 20 + 1 := by rw [jobSteps]; omega
  obtain ⟨a, hrun, hsa, hua, hat, hout⟩ := busyRun_slots hs hadm hu h0 (n := n) (by omega)
  obtain ⟨b, hblock, hab, hub, hbt, hout'⟩ :=
    busyRun_slot (hs.congr hsa) (hsa.image ▸ hadm) hua hat (by rw [hsa.outLen]; omega)
  have hsb := hsa.trans hab
  rcases exec_next_at_slot hbt (by rw [hsb.outLen]; omega) with ⟨hmore, -⟩ | ⟨-, hnext⟩
  · rw [hsb.outLen] at hmore
    omega
  · have hdone := busyRun_of_exec (hs.congr hsb) (by rw [hub, decodeUpc_next]) hnext
    have hall := (hrun.trans hblock).trans hdone
    rw [← hsteps] at hall
    exact ⟨_, hall,
      { state := rfl
        err := hsb.status.2
        image := hsb.image
        inbox := hsb.inbox
        replies := hsb.replies
        job := hsb.job
        out := by
          rw [setUpc_out, setStatus_out, hout', hsa.image, hout, encodeLevel_eq_storeSlots, hn, storeSlots_succ] }⟩

end Sys2Proof.Proofs

/-! PROOFS. A launch from START to DONE (spec/44_block_encoder.md R118, R119, R124), and as the host runs it through the
register port (spec/30_encoding.md R65, R66). -/

namespace Sys2Proof.Proofs

open Sys2Proof.Machine Sys2Proof.Laws

/-! ### START and the job -/

/-- A START that passes its checks is DONE at once for an empty level, else BUSY at the first block (R118). -/
theorem exec_start_accepted {s : State} (h : Accepted s) :
    exec .start s = .next (if s.outLen = 0 then (s.launch 0).setStatus .done s.err
      else ((s.launch s.outLen).setStatus .busy .none).gotoBlock 0 0 0) := by
  have hstate : ¬(s.jobState = .busy ∨ s.jobState = .error) := by rcases h.state with hs | hs <;> simp [hs]
  rw [exec, execStart, if_neg hstate, if_neg (Nat.not_lt.2 h.legalStride), if_neg (Nat.not_lt.2 h.backedOut)]
  split <;> rfl

/-- The platform admits every block of a legal launch. -/
theorem allAdmitted_of_legalLaunch {s : State} (h : LegalLaunch s) : AllAdmitted s.image := by
  intro r c ch hr hc
  refine ⟨(extractAdmitted_iff _ _ _ _).2 fun k => ?_, (storeAdmitted_iff _ _ _ _).2 ?_⟩
  · obtain ⟨y, x, hy, hx, e⟩ := sampleOffset_mem_image hr hc ch k
    have hread : s.image.reads (s.image.sampleOffset r c ch k) = true := by
      refine (reads_iff _ _).2 ⟨y, hy, x, hx, ?_⟩
      rw [e]
      fin_cases ch
      · exact .inl rfl
      · exact .inr rfl
    exact Nat.lt_of_not_le fun hle => h.backedSrc ⟨_, hread, hle⟩
  · by_contra hno
    refine h.willing ⟨r, c, ch, hr, hc, ?_⟩
    rcases not_and_or.1 hno with hcap | hrefused
    · exact .inl (Nat.lt_of_not_le hcap)
    · exact .inr (not_not.1 hrefused)

theorem atSlot_zero {s : State} (hr : s.trow = 0) (hc : s.tcol = 0) (hch : s.ch = 0) : AtSlot s 0 := by
  simp [AtSlot, Image.blockOfSlot, hr, hc, hch]

/-- A legal launch reaches DONE, BUSY until then, while the host waits (R115, R118, R124). -/
theorem legalLaunch_reaches_done {s : State} (h : LegalLaunch s) (hw : HostWaits s) :
    ∃ u t, exec .start s = .next u ∧ BusyRun (jobSteps s) u t ∧ JobDone (s.launch s.outLen) t := by
  have hstart := exec_start_accepted h.accepted
  split at hstart
  · next hlen =>
    have hslots : s.image.tilesX * s.image.tilesY = 0 := by
      rw [State.outLen, Image.outLen] at hlen
      omega
    refine ⟨_, _, hstart, by rw [jobSteps, hslots]; exact .refl _, ?_⟩
    rw [hlen]
    exact ⟨rfl, rfl, rfl, rfl, rfl, rfl, by rw [encodeLevel_eq_storeSlots, launch_image, hslots]; rfl⟩
  · next hlen =>
    have hadm := allAdmitted_of_legalLaunch h
    obtain ⟨t, hrun, hdone⟩ :=
      busyRun_level (s := ((s.launch s.outLen).setStatus .busy .none).gotoBlock 0 0 0) ⟨rfl, hw, rfl⟩ hadm rfl
        (atSlot_zero rfl rfl rfl) hlen
    exact ⟨_, t, hstart, hrun, { hdone with err := hdone.err.trans h.accepted.clean.symm }⟩

/-! ### The launch through the register port -/

/-- What the host has pending is in no clause of a launch. -/
theorem legalLaunch_setInbox {s : State} (h : LegalLaunch s) (q : List HostEvent) :
    LegalLaunch { s with inbox := q } where
  accepted := ⟨h.accepted.state, h.accepted.clean, h.accepted.legalStride, h.accepted.backedOut⟩
  backedSrc := h.backedSrc
  willing := h.willing

/-- In DONE a WAIT and a read of STATUS answer 2, and OUT is the host's again (R65, R66, R159). -/
theorem runSteps_wait_readStatus {s : State} {rest : List HostEvent}
    (hq : s.inbox = ⟨0, .waitJob⟩ :: ⟨0, .readReg 1⟩ :: rest) (hdone : s.jobState = .done) (herr : s.err = .none) :
    runSteps 2 s = .next { s with inbox := rest, replies := s.replies ++ [.reg 1 2], lease := false } := by
  have hwait := step_of_due hq fun _ => by rw [hdone]; exact nofun
  have hread : step { s with inbox := ⟨0, .readReg 1⟩ :: rest, lease := false } =
      .next (hostReadReg 1 { s with inbox := rest, lease := false }) :=
    step_of_due (op := .readReg 1) rfl nofun
  rw [hostAccess, pollStatus_eq, if_pos (.inl hdone)] at hwait
  rw [runSteps_succ hwait, runSteps_succ hread, hostReadReg_eq, readReg_eq]
  simp [runSteps, hdone, herr, JobState.bits, ErrCode.bits]

/-- Settles O52: START lands, the job runs while the host waits, and then WAIT and the read of STATUS land. -/
theorem hostRunsTheJob : Obligations.HostRunsTheJob := by
  intro s rest h
  obtain ⟨u, t, hstart, hrun, hdone⟩ :=
    legalLaunch_reaches_done (legalLaunch_setInbox h (⟨0, .waitJob⟩ :: ⟨0, .readReg 1⟩ :: rest)) (.inr ⟨_, rfl⟩)
  have hstep : step (launchByHost s rest) = .next u := (step_of_due (op := .writeReg 0 1) rfl nofun).trans hstart
  have herr : t.err = .none := hdone.err.trans h.accepted.clean
  have hend := runSteps_wait_readStatus hdone.inbox hdone.state herr
  have hall : runSteps (jobSteps s + 3) (launchByHost s rest) = runSteps 2 t := by
    rw [runSteps_succ hstep (jobSteps s + 2)]
    exact runSteps_add hrun.reaches 2
  refine ⟨_, hall.trans hend, rfl, congrArg (· ++ [.reg 1 2]) hdone.replies, hdone.state, herr, rfl,
    congrArg Job.len hdone.job, hdone.out, congrArg Image.src hdone.image,
    ⟨congrArg Image.width hdone.image, congrArg Image.height hdone.image, congrArg Image.stride hdone.image⟩,
    fun n h1 hn => ?_⟩
  obtain ⟨m, rfl⟩ := Nat.exists_eq_add_of_le' h1
  rw [runSteps_succ hstep]
  exact hrun.busy m hn

end Sys2Proof.Proofs

/-! PROOFS. EXTRACT (spec/40_block_sampler.md): the samples it puts into BLK, its fault, and the crop law of R74. -/

namespace Sys2Proof.Proofs

open Sys2Proof.Machine Sys2Proof.Laws

/-! ### EXTRACT -/

/-- Outside the empty image the offsets EXTRACT reads are those R58 assembles from the registers. -/
theorem sampleOffset_eq_clampedOffset {s : State} (hw : 1 ≤ s.width) (hh : 1 ≤ s.height) (k : Fin 16) :
    s.image.sampleOffset s.trow s.tcol s.ch k = clampedOffset s k := by
  have hrow : s.image.sampleRow s.trow k = min (4 * s.trow + k / 4) (s.height - 1) := clampCoord_of_pos _ hh
  have hcol : s.image.sampleCol s.tcol k = min (4 * s.tcol + k % 4) (s.width - 1) := clampCoord_of_pos _ hw
  rw [Image.sampleOffset, hrow, hcol]
  rfl

theorem extractAdmitted_iff_clampedOffset {s : State} (hw : 1 ≤ s.width) (hh : 1 ≤ s.height) :
    extractAdmitted s.image s.trow s.tcol s.ch = true ↔ ∀ k : Fin 16, clampedOffset s k < s.params.srcLen := by
  simp only [extractAdmitted_iff, sampleOffset_eq_clampedOffset hw hh, image_params]

/-- Everything a sample of EXTRACT can be, at the offset of R58. -/
theorem sampleBlock_mem_srcBytes {s : State} (hw : 1 ≤ s.width) (hh : 1 ≤ s.height) (k : Fin 16) :
    s.sampleBlock[k] ∈ s.job.srcBytes (clampedOffset s k) (Mem.read s.src (clampedOffset s k)) := by
  rw [← sampleOffset_eq_clampedOffset hw hh]
  exact getElem_sampleBlock s k

theorem exec_extract_refused {s : State} (h : ¬ extractAdmitted s.image s.trow s.tcol s.ch = true) :
    exec .extract s = .next (s.raiseFault (s.faultCode .src)) := if_neg h

/-- A block of the image whose reads are admitted and whose write is not raises OutFault (R139). -/
theorem someOutFault_of_mem_blocks {s : State} {b : Nat × Nat × Fin 2} (hb : b ∈ blocks s.image)
    (hread : extractAdmitted s.image b.1 b.2.1 b.2.2 = true) (hwrite : storeAdmitted s.image b.1 b.2.1 b.2.2 = false) :
    someOutFault s := by
  obtain ⟨hr, hc⟩ := (mem_blocks _ _).1 hb
  refine ⟨b.1, b.2.1, b.2.2, hr, hc, (extractAdmitted_iff _ _ _ _).1 hread, ?_⟩
  by_contra hno
  obtain ⟨hcap, hrefused⟩ := not_or.1 hno
  exact absurd ((storeAdmitted_iff _ _ _ _).2 ⟨Nat.le_of_not_lt hcap, hrefused⟩) (by simp [hwrite])

/-- The code of a SrcFault is OUT only where two workers may race (R141, U7; log entry 15). -/
theorem faultCode_src_cases (s : State) :
    s.faultCode .src = .src ∨ (s.faultCode .src = .out ∧ 1 < s.params.workers ∧ someOutFault s) := by
  rcases faultCode_cases s .src with h | ⟨h | h, hworkers, -, b, hb, hread, hwrite⟩
  · exact .inl h
  · exact .inl h
  · exact .inr ⟨h, hworkers, someOutFault_of_mem_blocks hb hread hwrite⟩

/-- Fault entry touches STATUS and UPC only (R142). -/
theorem faultFrame_raiseFault (s : State) (e : ErrCode) : faultFrame s (s.raiseFault e) :=
  ⟨⟨rfl, rfl, rfl⟩, ⟨rfl, rfl, rfl⟩, ⟨rfl, ⟨rfl, rfl, rfl, rfl⟩, rfl, rfl⟩, fun _ => rfl, fun _ => rfl,
    ⟨rfl, rfl, rfl, rfl, rfl, rfl, rfl⟩⟩

/-- BLK and UPC are all that an admitted EXTRACT writes (R73). -/
theorem frame_setBlk_setUpc (s : State) (b : Vector Byte 16) (u : BitVec 7) :
    let t := (s.setBlk b).setUpc u
    sameStatus s t ∧ sameDims s t ∧ samePosition s t ∧ sameEndpoints s t ∧ t.code = s.code ∧ t.packed = s.packed ∧
      sameSrc s t ∧ sameOut s t ∧ sameSurroundings s t :=
  ⟨⟨rfl, rfl⟩, ⟨rfl, rfl, rfl⟩, ⟨rfl, rfl, rfl⟩, ⟨rfl, rfl, rfl, rfl⟩, rfl, rfl, fun _ => rfl, fun _ => rfl,
    ⟨rfl, rfl, rfl, rfl, rfl, rfl, rfl⟩⟩

/-- Settles O6: the 16 offsets are those of R58; each sample is one of the bytes a read may return, and a refused read
is a fault entry. -/
theorem extractReadsTheBlock : Obligations.ExtractReadsTheBlock := by
  intro s hw hh
  have hadm := extractAdmitted_iff_clampedOffset hw hh
  constructor
  · intro hall
    have hsample := sampleBlock_mem_srcBytes hw hh
    refine ⟨_, exec_extract_admitted (hadm.2 hall), fun k hquiet => ?_, fun k => ?_, upcEndpts_eq,
      frame_setBlk_setUpc s _ _⟩
    · rw [setUpc_blk, setBlk_blk]
      have hone := hsample k
      rw [srcBytes_of_not_put hquiet] at hone
      exact List.mem_singleton.1 hone
    · rw [setUpc_blk, setBlk_blk]
      exact mem_srcBytes (hsample k)
  · rintro ⟨k, hk⟩
    have hrefused := fun h => Nat.not_lt.2 hk (hadm.1 h k)
    exact ⟨_, exec_extract_refused hrefused, rfl, rfl, faultFrame_raiseFault _ _, faultCode_src_cases s⟩

/-! ### The crop law -/

/-- In tile (0, 0) of an image of at least 4 by 4 nothing is clamped (R71, R74). -/
theorem sampleOffset_first_tile {img : Image} (hw : 4 ≤ img.width) (hh : 4 ≤ img.height) (ch : Fin 2) (k : Fin 16) :
    img.sampleOffset 0 0 ch k = img.texelOffset (k / 4) (k % 4) ch := by
  have hrow : img.sampleRow 0 k = k / 4 := (clampCoord_of_pos _ (by omega)).trans (by omega)
  have hcol : img.sampleCol 0 k = k % 4 := (clampCoord_of_pos _ (by omega)).trans (by omega)
  rw [Image.sampleOffset, hrow, hcol]

/-- The top-left 4 by 4 crop of an image: the same texels, other dimensions (R74). -/
def crop4 (img : Image) : Image := { img with width := 4, height := 4 }

@[simp] theorem crop4_src (img : Image) : (crop4 img).src = img.src := rfl

theorem extract_crop4 {img : Image} (hw : 4 ≤ img.width) (hh : 4 ≤ img.height) (ch : Fin 2) :
    extract img 0 0 ch = extract (crop4 img) 0 0 ch := by
  have hoffset (k : Fin 16) : img.sampleOffset 0 0 ch k = (crop4 img).sampleOffset 0 0 ch k :=
    (sampleOffset_first_tile hw hh ch k).trans (sampleOffset_first_tile (img := crop4 img) le_rfl le_rfl ch k).symm
  simp only [extract, hoffset, crop4_src]

/-- Settles O8: the block is a function of the samples, and tile (0, 0) has the same samples in the crop. -/
theorem cropKeepsFirstTile : Obligations.CropKeepsFirstTile := by
  intro img ch hw hh
  exact congrArg encodeSamples (extract_crop4 hw hh ch)

end Sys2Proof.Proofs

/-! PROOFS. ENDPTS (spec/41_endpoint_selector.md R80 to R83): the endpoints of every block, and the degenerate-block
law. -/

namespace Sys2Proof.Proofs

open Sys2Proof.Machine Sys2Proof.Laws

/-! ### The endpoints as bytes of the block -/

theorem blockMin_of_isLeast {b : Vector Byte 16} {lo : Byte} (h : isLeast lo b) : blockMin b = lo.toNat := by
  obtain ⟨⟨j, rfl⟩, hle⟩ := h
  obtain ⟨k, hk⟩ := exists_eq_blockMin b
  exact le_antisymm (blockMin_le b j) (hk ▸ hle k)

theorem blockMax_of_isGreatest {b : Vector Byte 16} {hi : Byte} (h : isGreatest hi b) : blockMax b = hi.toNat := by
  obtain ⟨⟨j, rfl⟩, hle⟩ := h
  obtain ⟨k, hk⟩ := exists_eq_blockMax b
  exact le_antisymm (hk ▸ hle k) (le_blockMax b j)

/-- A block whose least and greatest samples are equal is uniform. -/
theorem uniform_of_extrema_eq {b : Vector Byte 16} {v : Byte} (hlo : isLeast v b) (hhi : isGreatest v b) (k : Fin 16) :
    b[k] = v :=
  BitVec.eq_of_toNat_eq (le_antisymm (hhi.2 k) (hlo.2 k))

/-- Extrema that differ are the endpoints (R80). -/
theorem computeEndpoints_of_extrema_ne {b : Vector Byte 16} {lo hi : Byte} (hlo : isLeast lo b)
    (hhi : isGreatest hi b) (hne : lo ≠ hi) : computeEndpoints b = (lo, hi) := by
  have hadj : adjustEndpoints lo.toNat hi.toNat = (lo.toNat, hi.toNat) :=
    if_neg fun e => hne (BitVec.eq_of_toNat_eq e)
  rw [computeEndpoints, blockMin_of_isLeast hlo, blockMax_of_isGreatest hhi, hadj]
  simp

/-- The endpoints as functions of the extrema: moved apart when equal, upwards unless they are 255 (R80, R82). -/
theorem computeEndpoints_of_extrema {b : Vector Byte 16} {lo hi : Byte} (hlo : isLeast lo b) (hhi : isGreatest hi b) :
    computeEndpoints b = (if lo = hi ∧ hi = 255 then 254 else lo, if lo = hi ∧ hi ≠ 255 then hi + 1 else hi) := by
  by_cases heq : lo = hi
  · subst heq
    rw [computeEndpoints_of_uniform (uniform_of_extrema_eq hlo hhi)]
    split
    · next h255 => subst h255; rfl
    · next h255 => rw [if_neg fun h => h255 h.2, if_pos ⟨rfl, h255⟩]
  · rw [computeEndpoints_of_extrema_ne hlo hhi heq]
    simp [heq]

/-- The endpoints of a uniform block are adjacent (R82). -/
theorem computeEndpoints_adjacent_of_uniform {b : Vector Byte 16} {v : Byte} (h : ∀ k : Fin 16, b[k] = v) :
    (computeEndpoints b).2.toNat - (computeEndpoints b).1.toNat = 1 := by
  rw [computeEndpoints_of_uniform h]
  split
  · rfl
  · next hv => bv_omega

/-! ### ENDPTS -/

/-- What ENDPTS leaves unchanged (R80). -/
def endptsFrame (s t : State) : Prop :=
  t.blk = s.blk ∧ t.code = s.code ∧ t.packed = s.packed ∧ sameStatus s t ∧ sameDims s t ∧ samePosition s t ∧
    sameSrc s t ∧ sameOut s t ∧ sameSurroundings s t

/-- All that ENDPTS does: from every state it writes the endpoints of BLK, ready for QUANT, and goes to lane 0. -/
theorem exec_endpts (s : State) :
    ∃ t, exec .endpts s = .next t ∧ t.minr = (computeEndpoints s.blk).1 ∧ t.maxr = (computeEndpoints s.blk).2 ∧
      t.upc = upcQuant 0 ∧ EndpointsReady t ∧ endptsFrame s t := by
  obtain ⟨t, ht⟩ : ∃ t, execEndpts s = .next t := ⟨_, rfl⟩
  have hready := endpointsReady_of_execEndpts ht
  refine ⟨t, ht, ?_⟩
  obtain rfl := execEndpts_next ht
  exact ⟨rfl, rfl, rfl, hready, rfl, rfl, rfl, ⟨rfl, rfl⟩, ⟨rfl, rfl, rfl⟩, ⟨rfl, rfl, rfl⟩, fun _ => rfl, fun _ => rfl,
    ⟨rfl, rfl, rfl, rfl, rfl, rfl, rfl⟩⟩

theorem endpointsReady_den_bounds {s : State} (h : EndpointsReady s) : 1 ≤ s.den.toNat ∧ s.den.toNat ≤ 255 := by
  have hstrict := h.strict
  have hden := h.den
  have hmax := s.den.isLt
  omega

/-- Settles O9: the registers hold the endpoints of BLK, which are functions of its extrema. -/
theorem endpointsAreAdjustedExtrema : Obligations.EndpointsAreAdjustedExtrema := by
  intro s
  obtain ⟨t, ht, hmin, hmax, hupc, hready, hframe⟩ := exec_endpts s
  refine ⟨t, ht, fun lo hi hlo hhi => ?_, ?_, hready.mult, hupc, hframe⟩
  · rw [hmin, hmax, computeEndpoints_of_extrema hlo hhi]
    exact ⟨rfl, rfl⟩
  · rw [hready.den]
    exact Nat.sub_add_cancel hready.strict.le

/-- Settles O10: it is what ENDPTS leaves ready for QUANT, with BLK unchanged. -/
theorem endpointsStrictAndBracketing : Obligations.EndpointsStrictAndBracketing := by
  intro s
  obtain ⟨t, ht, -, -, -, hready, hblk, -⟩ := exec_endpts s
  obtain ⟨hden, hden'⟩ := endpointsReady_den_bounds hready
  exact ⟨t, ht, hready.strict, hden, hden', hready.bracket, fun k => by rw [hblk]⟩

/-! ### The degenerate-block law -/

/-- After ENDPTS on a uniform block every QUANT writes the one wire code of R82's table. -/
theorem exec_quant_of_uniform {t : State} {v : Byte} (hready : EndpointsReady t)
    (hmin : t.minr = (computeEndpoints t.blk).1) (hmax : t.maxr = (computeEndpoints t.blk).2)
    (hv : ∀ k : Fin 16, t.blk[k] = v) (k : Fin 16) :
    ∃ u, exec (.quant k) t = .next u ∧ u.code[k] = if v = 255 then 0 else 1 := by
  refine ⟨_, exec_quant_ready hready k, ?_⟩
  rw [setUpc_code, getElem_setCode, if_pos rfl, hmin, hmax, quantizeCode_of_uniform hv k]

/-- Settles O11: a uniform block has adjacent endpoints and its samples lie on one of them; in any other block the
extrema are the endpoints. -/
theorem degenerateBlockLaw : Obligations.DegenerateBlockLaw := by
  intro s
  obtain ⟨t, ht, hmin, hmax, -, hready, hblk, -⟩ := exec_endpts s
  rw [← hblk] at hmin hmax
  refine ⟨t, ht, hblk, fun v hv => ?_, fun hne => ?_⟩
  · rw [← hblk] at hv
    have hends := computeEndpoints_of_uniform hv
    refine ⟨fun hv255 => ?_, fun hv255 => ?_, BitVec.eq_of_toNat_eq ?_, exec_quant_of_uniform hready hmin hmax hv⟩
    · rw [hmin, hmax, hends, if_neg hv255]
      exact ⟨rfl, rfl⟩
    · rw [hmin, hmax, hends, if_pos hv255]
      exact ⟨rfl, rfl⟩
    · rw [hready.den, hmin, hmax]
      exact computeEndpoints_adjacent_of_uniform hv
  · rw [hmin, hmax, hblk]
    exact endpoints_are_samples hne

end Sys2Proof.Proofs

/-! PROOFS. The index quantizer (spec/42_index_quantizer.md). -/

namespace Sys2Proof.Proofs

open Sys2Proof.Machine Sys2Proof.Laws

/-! ### The values of the quantizer (R92, R93, R98) -/

/-- R93's bound of the product. -/
theorem multiplier_mul_le {n d : Nat} (h : 1 ≤ d) (h' : d ≤ 255) (hn : n ≤ d) : multiplier d * n ≤ 28926 := by
  have hmul : multiplier d * n ≤ multiplier d * d := Nat.mul_le_mul_left _ hn
  obtain ⟨-, hlt⟩ := multiplier_mul_bounds h
  omega

theorem rampIndex_le {n d : Nat} (h : 1 ≤ d) (h' : d ≤ 255) (hn : n ≤ d) : rampIndex n d ≤ 7 := by
  have hmul := multiplier_mul_le h h' hn
  rw [rampIndex_eq]
  omega

/-- Settles O16: the product of the multiplier and the numerator is at most that of the multiplier and the denominator,
which is less than `28672 + d`. -/
theorem quantizerValuesFit : Obligations.QuantizerValuesFit := by
  intro n d h h' hn
  obtain ⟨hlo, hhi⟩ := multiplier_mul_bounds h
  have hmult := multiplier_le h
  have hmul := multiplier_mul_le h h' hn
  exact ⟨hhi, hlo, by omega, hmul, by omega, rampIndex_le h h' hn⟩

/-! ### Against the exact index (R94, R95) -/

/-- By how much the multiplier times its denominator exceeds `7 << 12`. -/
def multiplierExcess (d : Nat) : Nat := multiplier d * d - 28672

theorem multiplierExcess_lt {d : Nat} (h : 1 ≤ d) : multiplierExcess d < d := by
  obtain ⟨hlo, hhi⟩ := multiplier_mul_bounds h
  exact Nat.sub_lt_left_of_lt_add hlo hhi

/-- The excess on the numerator, over the domain of the quantizer. -/
theorem multiplierExcess_mul_lt {n d : Nat} (h : 1 ≤ d) (h' : d ≤ 255) (hn : n ≤ d) :
    multiplierExcess d * n < 4096 * d := by
  have hlt := multiplierExcess_lt h
  calc multiplierExcess d * n ≤ multiplierExcess d * 255 := Nat.mul_le_mul_left _ (hn.trans h')
    _ < 4096 * d := by omega

/-- The rounded product, scaled by the denominator: the exact index, the remainder of the exact division and what the
rounding of the multiplier adds. -/
theorem roundedProduct_mul_den (n : Nat) {d : Nat} (h : 1 ≤ d) :
    (multiplier d * n + 2048) * d =
      2048 * ((14 * n + d) % (2 * d)) + multiplierExcess d * n + 4096 * d * exactIndex n d := by
  obtain ⟨hlo, -⟩ := multiplier_mul_bounds h
  have hmult : multiplier d * d = multiplierExcess d + 28672 := (Nat.sub_add_cancel hlo).symm
  have hexact : 14 * n + d = 2 * d * exactIndex n d + (14 * n + d) % (2 * d) := (Nat.div_add_mod _ _).symm
  calc (multiplier d * n + 2048) * d = multiplier d * d * n + 2048 * d := by ring
    _ = 2048 * (14 * n + d) + multiplierExcess d * n := by rw [hmult]; ring
    _ = 2048 * (2 * d * exactIndex n d + (14 * n + d) % (2 * d)) + multiplierExcess d * n := by rw [← hexact]
    _ = _ := by ring

/-- The fixed-point index is the exact one and what the rounding of the multiplier carries over it (R95). -/
theorem rampIndex_eq_exactIndex_add (n : Nat) {d : Nat} (h : 1 ≤ d) :
    rampIndex n d =
      exactIndex n d + (2048 * ((14 * n + d) % (2 * d)) + multiplierExcess d * n) / (4096 * d) := by
  rw [rampIndex_eq, ← Nat.mul_div_mul_right _ _ h, roundedProduct_mul_den n h, Nat.add_mul_div_left _ _ (by omega),
    Nat.add_comm]

/-- The two indices agree where the excess stays below the distance to the next exact index. -/
theorem rampIndex_eq_exactIndex {n d : Nat} (h : 1 ≤ d)
    (hcarry : 2048 * ((14 * n + d) % (2 * d)) + multiplierExcess d * n < 4096 * d) :
    rampIndex n d = exactIndex n d := by
  rw [rampIndex_eq_exactIndex_add n h, Nat.div_eq_of_lt hcarry, Nat.add_zero]

theorem rampIndex_le_exactIndex_add_one {n d : Nat} (h : 1 ≤ d) (h' : d ≤ 255) (hn : n ≤ d) :
    rampIndex n d ≤ exactIndex n d + 1 := by
  have hrem := Nat.mod_lt (14 * n + d) (show 2 * d > 0 by omega)
  have hexcess := multiplierExcess_mul_lt h h' hn
  rw [rampIndex_eq_exactIndex_add n h]
  exact Nat.add_le_add_left (Nat.le_of_lt_succ (Nat.div_lt_of_lt_mul (by omega))) _

/-- At an exact tie the exact division leaves no remainder, so both indices are the upper one (R95). -/
theorem rampIndex_of_tie {n d j : Nat} (h : 1 ≤ d) (h' : d ≤ 255) (hn : n ≤ d) (htie : 14 * n = (2 * j + 1) * d) :
    rampIndex n d = j + 1 := by
  have hsum : 14 * n + d = 2 * d * (j + 1) := by rw [htie]; ring
  have hrem : (14 * n + d) % (2 * d) = 0 := by rw [hsum, Nat.mul_mod_right]
  have hexcess := multiplierExcess_mul_lt h h' hn
  rw [rampIndex_eq_exactIndex h (by rw [hrem]; omega), exactIndex, hsum, Nat.mul_div_cancel_left _ (by omega)]

/-- Just below an exact tie the excess is still too small to carry, up to denominator 64 (evaluated at each pair). -/
theorem multiplierExcess_mul_lt_below_tie :
    ∀ d ≤ 64, ∀ n ≤ d, (14 * n + d) % (2 * d) = 2 * d - 1 → multiplierExcess d * n < 2048 := by
  decide

/-- Up to denominator 64 the excess never carries: it is below 4096 on every numerator, and below 2048 where the
remainder is one less than the divisor (R95). -/
theorem rampIndex_eq_exactIndex_of_le {n d : Nat} (h : 1 ≤ d) (h' : d ≤ 64) (hn : n ≤ d) :
    rampIndex n d = exactIndex n d := by
  have hrem := Nat.mod_lt (14 * n + d) (show 2 * d > 0 by omega)
  refine rampIndex_eq_exactIndex h ?_
  by_cases htop : (14 * n + d) % (2 * d) = 2 * d - 1
  · have hexcess := multiplierExcess_mul_lt_below_tie d h' n hn htop
    omega
  · have hlt := multiplierExcess_lt h
    have hexcess : multiplierExcess d * n ≤ 63 * 64 := Nat.mul_le_mul (by omega) (hn.trans h')
    omega

/-- Settles O17: the fixed-point index is the exact one plus the carry of the multiplier's excess. -/
theorem fixedPointAgainstExact : Obligations.FixedPointAgainstExact := by
  refine ⟨fun n d h h' hn => ⟨fun h64 => rampIndex_eq_exactIndex_of_le h h64 hn, ?_,
    rampIndex_le_exactIndex_add_one h h' hn, fun j => rampIndex_of_tie h h' hn⟩, rfl, rfl⟩
  rw [rampIndex_eq_exactIndex_add n h]
  exact Nat.le_add_right _ _

/-! ### The wire codes (R96) -/

/-- The remap in numbers. -/
theorem toNat_wireCode {r : Nat} (h : r ≤ 7) :
    (wireCode r).toNat = if r = 7 then 0 else if r = 0 then 1 else 8 - r := by
  revert r; decide

/-- The ramp index that has a wire code (R96). -/
def rampOfWireCode (c : BitVec 3) : Nat := if c = 0 then 7 else if c = 1 then 0 else 8 - c.toNat

theorem rampOfWireCode_le (c : BitVec 3) : rampOfWireCode c ≤ 7 := by revert c; decide

theorem wireCode_rampOfWireCode (c : BitVec 3) : wireCode (rampOfWireCode c) = c := by revert c; decide

theorem rampOfWireCode_wireCode {r : Nat} (h : r ≤ 7) : rampOfWireCode (wireCode r) = r := by revert r; decide

/-- Settles O15: `rampOfWireCode` is the inverse of the remap. -/
theorem wireCodeRemapIsBijective : Obligations.WireCodeRemapIsBijective := by
  refine ⟨rfl, rfl, fun r h1 h6 => ?_, fun c =>
    ⟨rampOfWireCode c, rampOfWireCode_le c, wireCode_rampOfWireCode c, fun r hr hrc => ?_⟩⟩
  · rw [toNat_wireCode (by omega), if_neg (by omega), if_neg (by omega)]
  · rw [← hrc, rampOfWireCode_wireCode hr]

/-! ### Quantize and its precondition (R97, R101) -/

theorem quantize_of_admits {x lo hi : Byte} (h : quantizeAdmits x lo hi = true) :
    quantize x lo hi = some (quantizeCode x lo hi) := if_pos h

theorem quantize_eq_none_iff (x lo hi : Byte) :
    quantize x lo hi = none ↔ ¬(lo.toNat < hi.toNat ∧ lo.toNat ≤ x.toNat ∧ x.toNat ≤ hi.toNat) := by
  rw [← quantizeAdmits_iff, quantize]
  split <;> simp [*]

/-- The state after an admitted QUANT `k`. -/
def afterQuant (k : Fin 16) (s : State) : State :=
  (s.setCode k (quantizeCode s.blk[k] s.minr s.maxr)).setUpc (upcAfterLane k)

theorem getElem_afterQuant (s : State) (k i : Fin 16) :
    (afterQuant k s).code[i] = if i = k then quantizeCode s.blk[k] s.minr s.maxr else s.code[i] := getElem_setCode ..

theorem exec_quant_of_admits {s : State} {k : Fin 16} (h : quantizeAdmits s.blk[k] s.minr s.maxr = true) :
    exec (.quant k) s = .next (afterQuant k s) := by
  rw [exec, execQuant, quantize_of_admits h]
  rfl

/-- Settles O13: QUANT is refused where Quantize has no value. -/
theorem quantRefusesOutsidePrecondition : Obligations.QuantRefusesOutsidePrecondition := by
  refine ⟨quantize_eq_none_iff, fun s k h => ?_⟩
  rw [exec, execQuant, (quantize_eq_none_iff _ _ _).2 h]

/-- The example of R97: for the denominator 40 the multiplier is 717. -/
theorem quantize_of_den_forty {x : Byte} (h : 10 ≤ x.toNat) (h' : x.toNat ≤ 50) :
    quantize x 10 50 = some (wireCode ((717 * (x.toNat - 10) + 2048) / 4096)) := by
  rw [quantize_of_admits ((quantizeAdmits_iff x 10 50).2 ⟨by decide, h, h'⟩), quantizeCode, rampIndex_eq]
  rfl

/-- Settles O14: at the endpoints the ramp index is 0 or 7, and so it is near them for the denominator 40. -/
theorem wireCodeBoundaryLaw : Obligations.WireCodeBoundaryLaw := by
  refine ⟨fun lo hi h => ⟨?_, ?_⟩, fun x ⟨h, h'⟩ => ?_, fun x ⟨h, h'⟩ => ?_⟩
  · rw [quantize_of_admits ((quantizeAdmits_iff _ _ _).2 ⟨h, le_rfl, h.le⟩), quantizeCode_min]
  · rw [quantize_of_admits ((quantizeAdmits_iff _ _ _).2 ⟨h, h.le, le_rfl⟩), quantizeCode_max h]
  · rw [quantize_of_den_forty (by omega) (by omega), show (717 * (x.toNat - 10) + 2048) / 4096 = 0 by omega]
    rfl
  · rw [quantize_of_den_forty (by omega) (by omega), show (717 * (x.toNat - 10) + 2048) / 4096 = 7 by omega]
    rfl

/-! ### QUANT (R90, R99) -/

/-- Settles O12: QUANT writes the wire code of the ramp index, which is R90's formula by definition. -/
theorem quantWritesWireCode : Obligations.QuantWritesWireCode := by
  intro s k hlt hmin hmax
  have hbyte := s.maxr.isLt
  have hr : rampIndex (s.blk[k].toNat - s.minr.toNat) (s.maxr.toNat - s.minr.toNat) ≤ 7 :=
    rampIndex_le (by omega) (by omega) (by omega)
  refine ⟨_, _, exec_quant_of_admits ((quantizeAdmits_iff _ _ _).2 ⟨hlt, hmin, hmax⟩), rampIndex_eq _ _, hr, ?_,
    fun j hj => ?_, toNat_upcAfterLane k, rfl, ⟨rfl, rfl, rfl, rfl⟩, rfl, ⟨rfl, rfl⟩, ⟨rfl, rfl, rfl⟩, ⟨rfl, rfl, rfl⟩,
    fun _ => rfl, fun _ => rfl, ⟨rfl, rfl, rfl, rfl, rfl, rfl, rfl⟩⟩
  · rw [getElem_afterQuant, if_pos rfl, quantizeCode, toNat_wireCode hr]
  · rw [getElem_afterQuant, if_neg hj]

/-- CODE after two lanes, in either order: a QUANT leaves what another reads as it was. -/
theorem code_afterQuant_comm (s : State) (j k : Fin 16) :
    (afterQuant k (afterQuant j s)).code = (afterQuant j (afterQuant k s)).code := by
  by_cases hjk : j = k
  · rw [hjk]
  · exact Vector.set_comm (hi := j.isLt) (hj := k.isLt) _ _ (Fin.val_ne_of_ne hjk)

/-- Settles O18: each QUANT reads the block and the endpoints, which no QUANT writes, and writes only its lane. -/
theorem lanesCommute : Obligations.LanesCommute := by
  intro s j k hj hk
  refine ⟨afterQuant j s, afterQuant k (afterQuant j s), afterQuant k s, afterQuant j (afterQuant k s),
    exec_quant_of_admits hj, exec_quant_of_admits (s := afterQuant j s) hk, exec_quant_of_admits hk,
    exec_quant_of_admits (s := afterQuant k s) hj, code_afterQuant_comm s j k, fun i hij hik => ?_⟩
  rw [getElem_afterQuant, if_neg hik, getElem_afterQuant, if_neg hij]

end Sys2Proof.Proofs

/-! PROOFS. PACK and STORE (spec/43_block_packer.md): the block format of R105 and R106, and the write of a block into
its slot or the fault of it. -/

namespace Sys2Proof.Proofs

open Sys2Proof.Machine Sys2Proof.Laws

/-! ### STORE (R107, R139) -/

theorem slotOffset_eq (s : State) :
    s.slotOffset = 8 * (2 * (s.trow * ((s.width + 3) / 4) + s.tcol) + s.ch.val) := rfl

/-- The write of STORE is admitted where the platform backs the slot and does not refuse it (R35, R139). -/
theorem storeAdmitted_iff_slotOffset (s : State) :
    storeAdmitted s.image s.trow s.tcol s.ch = true ↔
      s.slotOffset + 8 ≤ s.params.outCap ∧ s.slotOffset ∉ s.params.outRefused := storeAdmitted_iff _ _ _ _

theorem exec_store_refused {s : State} (h : ¬ storeAdmitted s.image s.trow s.tcol s.ch = true) :
    exec .store s = .next (s.raiseFault (s.faultCode .out)) := if_neg h

/-- A block whose reads are not all admitted has a sample that SRC does not back (R31). -/
theorem exists_sampleOffset_ge {img : Image} {r c : Nat} {ch : Fin 2} (h : extractAdmitted img r c ch = false) :
    ∃ k : Fin 16, img.params.srcLen ≤ img.sampleOffset r c ch k := by
  by_contra hno
  have hall : ∀ k : Fin 16, img.sampleOffset r c ch k < img.params.srcLen :=
    fun k => Nat.lt_of_not_le fun hk => hno ⟨k, hk⟩
  rw [(extractAdmitted_iff _ _ _ _).2 hall] at h
  cases h

/-- The code of an OutFault is SRC only where two workers may race (R141, U7; log entry 15). -/
theorem faultCode_out_cases (s : State) :
    s.faultCode .out = .out ∨ (s.faultCode .out = .src ∧ 1 < s.params.workers ∧
      ∃ b ∈ blocks s.image, ∃ k : Fin 16, s.params.srcLen ≤ s.image.sampleOffset b.1 b.2.1 b.2.2 k) := by
  rcases faultCode_cases s .out with h | ⟨h | h, hworkers, ⟨b, hb, hread⟩, -⟩
  · exact .inl h
  · exact .inr ⟨h, hworkers, b, hb, exists_sampleOffset_ge hread⟩
  · exact .inl h

/-- OUT and UPC are all that an admitted STORE writes (R107). -/
theorem frame_setOut_setUpc (s : State) (m : Mem) (u : BitVec 7) :
    let t := (s.setOut m).setUpc u
    sameStatus s t ∧ sameDims s t ∧ samePosition s t ∧ sameDatapath s t ∧ sameSrc s t ∧ sameSurroundings s t :=
  ⟨⟨rfl, rfl⟩, ⟨rfl, rfl, rfl⟩, ⟨rfl, rfl, rfl⟩, ⟨rfl, ⟨rfl, rfl, rfl, rfl⟩, rfl, rfl⟩, fun _ => rfl,
    ⟨rfl, rfl, rfl, rfl, rfl, rfl, rfl⟩⟩

/-- Settles O21: an admitted STORE is one write of 8 bytes, any other a fault entry. -/
theorem storeWritesItsSlot : Obligations.StoreWritesItsSlot := by
  intro s hout
  refine ⟨slotOffset_eq s, fun hadm => ?_, fun hrefused => ?_⟩
  · exact ⟨_, exec_store_admitted ((storeAdmitted_iff_slotOffset s).2 hadm),
      fun _ hi => read_write64_inside hout _ _ hi, fun _ ha => read_write64_outside _ _ ha, upcNext_eq,
      frame_setOut_setUpc s _ _⟩
  · have hnot : ¬ storeAdmitted s.image s.trow s.tcol s.ch = true := fun h => by
      obtain ⟨hcap, hwilling⟩ := (storeAdmitted_iff_slotOffset s).1 h
      exact hrefused.elim (Nat.not_lt.2 hcap) hwilling
    exact ⟨_, exec_store_refused hnot, rfl, rfl, faultFrame_raiseFault _ _, faultCode_out_cases s⟩

/-- Settles O22: the position of a running job is a tile, so its slot lies in the level, which START found backed. -/
theorem storeOfAJobIsAdmitted : Obligations.StoreOfAJobIsAdmitted := by
  intro s hinv hb _ hwilling
  have hrun := hinv.running hb
  have hroom : s.slotOffset + 8 ≤ s.params.outCap := (slot_in_level s.ch hrun.row hrun.col).trans hrun.room
  have hadm := (storeAdmitted_iff_slotOffset s).2 ⟨hroom, by rw [hwilling]; exact List.not_mem_nil⟩
  exact ⟨_, exec_store_admitted hadm, hb, rfl⟩

/-! ### PACK (R105, R106) -/

/-- Settles O19: the fields of the packed block; PACK writes PACKED and UPC alone. -/
theorem packPlacesEveryField : Obligations.PackPlacesEveryField := by
  intro s
  exact ⟨_, rfl, pack_max _ _ _, pack_min _ _ _, pack_code _ _ _, upcStore_eq, rfl, ⟨rfl, rfl, rfl, rfl⟩, rfl,
    ⟨rfl, rfl⟩, ⟨rfl, rfl, rfl⟩, ⟨rfl, rfl, rfl⟩, fun _ => rfl, fun _ => rfl, ⟨rfl, rfl, rfl, rfl, rfl, rfl, rfl⟩⟩

/-- Bits that stand in equal fields of two blocks are equal. -/
theorem getLsbD_eq_of_extractLsb' {v w : BitVec 64} {pos len i : Nat}
    (h : v.extractLsb' pos len = w.extractLsb' pos len) (hpos : pos ≤ i) (hlen : i < pos + len) :
    v.getLsbD i = w.getLsbD i := by
  have hbit := congrArg (BitVec.getLsbD · (i - pos)) h
  simpa [show i - pos < len by omega, Nat.add_sub_cancel' hpos] using hbit

/-- The 18 fields leave no gap: blocks with equal fields are equal (R106). -/
theorem eq_of_fields_eq {v w : BitVec 64} (hmax : v.extractLsb' 0 8 = w.extractLsb' 0 8)
    (hmin : v.extractLsb' 8 8 = w.extractLsb' 8 8)
    (hcode : ∀ k : Fin 16, v.extractLsb' (16 + 3 * k.val) 3 = w.extractLsb' (16 + 3 * k.val) 3) : v = w := by
  refine BitVec.eq_of_getLsbD_eq fun i hi => ?_
  by_cases h8 : i < 8
  · exact getLsbD_eq_of_extractLsb' hmax (Nat.zero_le i) (by omega)
  · by_cases h16 : i < 16
    · exact getLsbD_eq_of_extractLsb' hmin (by omega) (by omega)
    · exact getLsbD_eq_of_extractLsb' (hcode ⟨(i - 16) / 3, by omega⟩) (by dsimp only; omega) (by dsimp only; omega)

/-- Any 64 bits are the block of what stands in their fields. -/
theorem pack_fields (v : BitVec 64) :
    pack (v.extractLsb' 0 8) (v.extractLsb' 8 8)
      (Vector.ofFn fun k : Fin 16 => v.extractLsb' (16 + 3 * k.val) 3) = v := by
  refine eq_of_fields_eq (pack_max _ _ _) (pack_min _ _ _) fun k => ?_
  rw [pack_code, Fin.getElem_fin, Vector.getElem_ofFn]

/-- Settles O20: the operands are read back from the fields of the block, and the fields of any 64 bits are operands. -/
theorem packIsBijective : Obligations.PackIsBijective := by
  refine ⟨fun hi lo hi' lo' c c' h => ⟨?_, ?_, Vector.ext fun i hlane => ?_⟩, fun v => ⟨_, _, _, pack_fields v⟩⟩
  · rw [← pack_max hi lo c, h, pack_max]
  · rw [← pack_min hi lo c, h, pack_min]
  · have hcode := pack_code hi lo c ⟨i, hlane⟩
    rw [h, pack_code] at hcode
    exact hcode.symm

end Sys2Proof.Proofs

/-! PROOFS. The step, NEXT, START and RESET (spec/44_block_encoder.md R116 to R121): which instruction a step runs, what
each exit of NEXT and START does, and how STATE changes. -/

namespace Sys2Proof.Proofs

open Sys2Proof.Machine Sys2Proof.Laws

/-! ### The instruction of a step -/

theorem issue_of_decode {s : State} {i : Instr} (h : decodeUpc s.upc = .ok i) : issue s = exec i s := by
  rw [issue, h]

/-- While BUSY an access that is not due lets the sequencer issue, one count nearer (log entry 11). -/
theorem step_of_later {s : State} {n : Nat} {op : HostOp} {rest : List HostEvent} (hb : s.jobState = .busy)
    (hq : s.inbox = ⟨n + 1, op⟩ :: rest) : step s = issue { s with inbox := ⟨n, op⟩ :: rest } := by
  simp only [step, advance, hq]
  exact if_pos hb

/-- A write of a command to CTRL runs it (R17, R60). -/
theorem hostWriteReg_of_command {v : Nat} {i : Instr} (h : decodeCtrl v = .ok i) (s : State) :
    hostWriteReg 0 v s = exec i s := by
  rw [hostWriteReg, if_pos rfl, h]

/-- Settles O4: the sequencer issues with nothing due and under a WAIT, and a due access lands. -/
theorem stepRunsDecodedInstruction : Obligations.StepRunsDecodedInstruction := by
  refine ⟨fun s i hb hq hi => ?_, fun s i n op rest hb hq hi => ?_, fun s i rest hb hq hi => ?_,
    fun s i v rest hq hi => ?_⟩
  · exact (step_of_busy hq hb).trans (issue_of_decode hi)
  · exact (step_of_later hb hq).trans (issue_of_decode hi)
  · exact (step_of_hostWaits hb (.inr ⟨rest, hq⟩)).trans (issue_of_decode hi)
  · exact (step_of_due hq nofun).trans (hostWriteReg_of_command hi _)

/-- Outside BUSY, with nothing pending, a step changes nothing (R155; log entry 18). -/
theorem step_of_not_busy {s : State} (hq : s.inbox = []) (hb : s.jobState ≠ .busy) : step s = .next s := by
  simp [step, advance, hq, encoderStep, hb]

/-! ### NEXT (R116) -/

theorem exec_next_channel {s : State} (h : s.ch = 0) : exec .next s = .next (s.gotoBlock s.trow s.tcol 1) := if_pos h

theorem exec_next_column {s : State} (h : s.ch = 1) (hc : s.tcol + 1 < s.image.tilesX) :
    exec .next s = .next (s.gotoBlock s.trow (s.tcol + 1) 0) :=
  (if_neg (by rw [h]; decide)).trans (if_pos hc)

theorem exec_next_row {s : State} (h : s.ch = 1) (hc : s.image.tilesX ≤ s.tcol + 1)
    (hr : s.trow + 1 < s.image.tilesY) : exec .next s = .next (s.gotoBlock (s.trow + 1) 0 0) :=
  ((if_neg (by rw [h]; decide)).trans (if_neg (Nat.not_lt.2 hc))).trans (if_pos hr)

theorem exec_next_last {s : State} (h : s.ch = 1) (hc : s.image.tilesX ≤ s.tcol + 1)
    (hr : s.image.tilesY ≤ s.trow + 1) : exec .next s = .next ((s.setStatus .done s.err).setUpc upcNone) :=
  ((if_neg (by rw [h]; decide)).trans (if_neg (Nat.not_lt.2 hc))).trans (if_neg (Nat.not_lt.2 hr))

/-- From every state NEXT completes. -/
theorem exec_next_completes (s : State) : ∃ t, exec .next s = .next t := by
  by_cases h0 : s.ch = 0
  · exact ⟨_, exec_next_channel h0⟩
  have h1 : s.ch = 1 := by omega
  rcases Nat.lt_or_ge (s.tcol + 1) s.image.tilesX with hc | hc
  · exact ⟨_, exec_next_column h1 hc⟩
  rcases Nat.lt_or_ge (s.trow + 1) s.image.tilesY with hr | hr
  · exact ⟨_, exec_next_row h1 hc hr⟩
  · exact ⟨_, exec_next_last h1 hc hr⟩

/-- NEXT writes STATUS, the position and UPC alone. -/
theorem exec_next_frame {s t : State} (h : exec .next s = .next t) :
    sameDims s t ∧ sameDatapath s t ∧ sameSrc s t ∧ sameOut s t ∧ sameSurroundings s t := by
  rcases execNext_next h with ⟨-, rfl⟩ | ⟨-, -, rfl⟩ | ⟨-, -, -, rfl⟩ | ⟨-, -, -, rfl⟩ <;>
    exact ⟨⟨rfl, rfl, rfl⟩, ⟨rfl, ⟨rfl, rfl, rfl, rfl⟩, rfl, rfl⟩, fun _ => rfl, fun _ => rfl,
      ⟨rfl, rfl, rfl, rfl, rfl, rfl, rfl⟩⟩

/-- Settles O23: NEXT completes with one frame, and each exit is one update of the position. -/
theorem nextAdvancesThePosition : Obligations.NextAdvancesThePosition := by
  intro s
  obtain ⟨t, ht⟩ := exec_next_completes s
  have heq {u : State} (h : exec .next s = .next u) : t = u := Host.Outcome.next.inj (ht.symm.trans h)
  refine ⟨t, ht, fun h0 => ?_, fun h1 hc => ?_, fun h1 hc hr => ?_, fun h1 hc hr => ?_, exec_next_frame ht⟩
  · rw [heq (exec_next_channel h0)]
    exact ⟨rfl, rfl, rfl, upcExtract_eq, rfl, rfl⟩
  · rw [heq (exec_next_column h1 hc)]
    exact ⟨rfl, rfl, rfl, upcExtract_eq, rfl, rfl⟩
  · rw [heq (exec_next_row h1 hc hr)]
    exact ⟨rfl, rfl, rfl, upcExtract_eq, rfl, rfl⟩
  · rw [heq (exec_next_last h1 hc hr)]
    exact ⟨rfl, rfl, rfl, rfl, rfl, rfl⟩

/-! ### START (R118) and RESET (R120) -/

theorem exec_start_ignored {s : State} (h : s.jobState = .busy ∨ s.jobState = .error) : exec .start s = .next s :=
  if_pos h

section Start

variable {s : State} (hs : s.jobState = .idle ∨ s.jobState = .done)
include hs

theorem start_not_ignored : ¬(s.jobState = .busy ∨ s.jobState = .error) := by
  rcases hs with hs | hs <;> simp [hs]

theorem exec_start_cfg (h : s.stride < 4 * s.width) : exec .start s = .next ((s.launch 0).raiseFault .cfg) :=
  (if_neg (start_not_ignored hs)).trans (if_pos h)

theorem exec_start_alloc (h : 4 * s.width ≤ s.stride) (h' : s.params.outCap < s.outLen) :
    exec .start s = .next ((s.launch 0).raiseFault .alloc) :=
  ((if_neg (start_not_ignored hs)).trans (if_neg (Nat.not_lt.2 h))).trans (if_pos h')

theorem exec_start_empty (h : 4 * s.width ≤ s.stride) (h' : s.outLen = 0) :
    exec .start s = .next ((s.launch 0).setStatus .done s.err) :=
  (((if_neg (start_not_ignored hs)).trans (if_neg (Nat.not_lt.2 h))).trans
    (if_neg (Nat.not_lt.2 (h' ▸ Nat.zero_le _)))).trans (if_pos h')

theorem exec_start_opens (h : 4 * s.width ≤ s.stride) (h' : s.outLen ≤ s.params.outCap) (h0 : s.outLen ≠ 0) :
    exec .start s = .next (((s.launch s.outLen).setStatus .busy .none).gotoBlock 0 0 0) :=
  (((if_neg (start_not_ignored hs)).trans (if_neg (Nat.not_lt.2 h))).trans (if_neg (Nat.not_lt.2 h'))).trans
    (if_neg h0)

end Start

/-- From every state START completes. -/
theorem exec_start_completes (s : State) : ∃ t, exec .start s = .next t := by
  by_cases hb : s.jobState = .busy ∨ s.jobState = .error
  · exact ⟨_, exec_start_ignored hb⟩
  have hs : s.jobState = .idle ∨ s.jobState = .done := by cases h : s.jobState <;> simp_all
  rcases Nat.lt_or_ge s.stride (4 * s.width) with h | h
  · exact ⟨_, exec_start_cfg hs h⟩
  rcases Nat.lt_or_ge s.params.outCap s.outLen with h' | h'
  · exact ⟨_, exec_start_alloc hs h h'⟩
  by_cases h0 : s.outLen = 0
  · exact ⟨_, exec_start_empty hs h h0⟩
  · exact ⟨_, exec_start_opens hs h h' h0⟩

/-- START touches neither the dimensions, the datapath nor the memories. -/
theorem exec_start_frame {s t : State} (h : exec .start s = .next t) :
    sameDims s t ∧ sameDatapath s t ∧ sameSrc s t ∧ sameOut s t ∧ t.params = s.params ∧ t.inbox = s.inbox ∧
      t.replies = s.replies := by
  rcases execStart_next h with ⟨-, rfl⟩ | ⟨-, ⟨-, rfl⟩ | ⟨-, -, rfl⟩ | ⟨-, -, -, rfl⟩ | ⟨-, -, -, rfl⟩⟩ <;>
    exact ⟨⟨rfl, rfl, rfl⟩, ⟨rfl, ⟨rfl, rfl, rfl, rfl⟩, rfl, rfl⟩, fun _ => rfl, fun _ => rfl, rfl, rfl, rfl⟩

/-- Settles O24: START completes with one frame, and each exit is one update of the state. -/
theorem startDecides : Obligations.StartDecides := by
  intro s
  obtain ⟨t, ht⟩ := exec_start_completes s
  have heq {u : State} (h : exec .start s = .next u) : t = u := Host.Outcome.next.inj (ht.symm.trans h)
  refine ⟨t, ht, fun hb => heq (exec_start_ignored hb), fun hs => ⟨fun h => ?_, fun h h' => ?_, fun h h0 => ?_,
    fun h hw hh h' => ?_⟩, exec_start_frame ht⟩
  · rw [heq (exec_start_cfg hs h)]
    exact ⟨rfl, rfl, rfl⟩
  · rw [heq (exec_start_alloc hs h h')]
    exact ⟨rfl, rfl, rfl⟩
  · rw [heq (exec_start_empty hs h ((outLen_eq_zero s).2 h0))]
    exact ⟨rfl, rfl, rfl, rfl, rfl, rfl⟩
  · have h0 : s.outLen ≠ 0 := fun h0 => by have := (outLen_eq_zero s).1 h0; omega
    rw [heq (exec_start_opens hs h h' h0)]
    exact ⟨rfl, rfl, rfl, rfl, rfl, upcExtract_eq⟩

/-- Settles O25: the reset state is the values of R24, and it is IDLE. -/
theorem resetGivesTheResetState : Obligations.ResetGivesTheResetState := by
  intro s
  have hstatus : s.enterReset.statusWord = ErrCode.none.bits ++ JobState.idle.bits := rfl
  exact ⟨s.enterReset, rfl, rfl, rfl, rfl, rfl, rfl, rfl, (outLen_eq_zero _).2 (.inl rfl), hstatus.trans (by decide),
    fun _ => rfl, fun _ => rfl, rfl, rfl, rfl, fun hq => step_of_not_busy hq nofun⟩

/-! ### The table of STATE (R121) -/

/-- A START that changes STATE, and the outcome its checks give. -/
theorem jobState_of_execStart {s t : State} (h : execStart s = .next t) :
    t.jobState = s.jobState ∨
    ((s.jobState = .idle ∨ s.jobState = .done) ∧
      ((t.jobState = .busy ∧ 4 * s.width ≤ s.stride ∧ 0 < s.outLen ∧ s.outLen ≤ s.params.outCap) ∨
       (t.jobState = .done ∧ 4 * s.width ≤ s.stride ∧ s.outLen = 0) ∨
       (t.jobState = .error ∧ t.err = .cfg ∧ s.stride < 4 * s.width) ∨
       (t.jobState = .error ∧ t.err = .alloc ∧ 4 * s.width ≤ s.stride ∧ s.params.outCap < s.outLen))) := by
  rcases execStart_next h with
    ⟨-, rfl⟩ | ⟨hs, ⟨hw, rfl⟩ | ⟨hw, hcap, rfl⟩ | ⟨hw, -, h0, rfl⟩ | ⟨hw, hcap, h0, rfl⟩⟩
  · exact .inl rfl
  · exact .inr ⟨hs, .inr (.inr (.inl ⟨rfl, rfl, hw⟩))⟩
  · exact .inr ⟨hs, .inr (.inr (.inr ⟨rfl, rfl, hw, hcap⟩))⟩
  · exact .inr ⟨hs, .inr (.inl ⟨rfl, hw, h0⟩)⟩
  · exact .inr ⟨hs, .inl ⟨rfl, hw, Nat.pos_of_ne_zero h0, hcap⟩⟩

/-- Of the host's accesses only the two commands and the reset input can change STATE. -/
theorem jobState_of_hostAccess {op : HostOp} {s t : State} (h : hostAccess op s = .next t) :
    t.jobState = s.jobState ∨ (op = .writeReg 0 1 ∧ execStart s = .next t) ∨
      ((op = .writeReg 0 2 ∨ op = .resetInput) ∧ t.jobState = .idle) := by
  cases op with
  | writeReg n v =>
    rcases hostWriteReg_next h with ⟨rfl, rfl, h⟩ | ⟨rfl, rfl, rfl⟩ | ⟨-, -, -, rfl⟩ | ⟨-, rfl⟩
    · exact .inr (.inl ⟨rfl, h⟩)
    · exact .inr (.inr ⟨.inl rfl, rfl⟩)
    · exact .inl rfl
    · rw [writeDims_eq]; exact .inl rfl
  | readReg n => cases h; rw [hostReadReg_eq]; exact .inl rfl
  | putSrc off bytes => obtain ⟨-, rfl⟩ := hostPutSrc_next h; exact .inl rfl
  | putOut off bytes => obtain ⟨-, rfl⟩ := hostPutOut_next h; exact .inl rfl
  | getOut off len => obtain ⟨-, rfl⟩ := hostGetOut_next h; exact .inl rfl
  | waitJob => cases h; exact .inl rfl
  | resetInput => cases h; exact .inr (.inr ⟨.inr rfl, rfl⟩)

/-- A micro-operation changes STATE as the last NEXT, or as a fault of EXTRACT or STORE. -/
theorem jobState_of_issue {s t : State} (h : issue s = .next t) :
    t.jobState = s.jobState ∨
    (s.upc = upcNext ∧ s.ch = 1 ∧ s.image.tilesX ≤ s.tcol + 1 ∧ s.image.tilesY ≤ s.trow + 1 ∧ t.jobState = .done) ∨
    (s.upc = upcExtract ∧ t = s.raiseFault (s.faultCode .src)) ∨
    (s.upc = upcStore ∧ t = s.raiseFault (s.faultCode .out)) := by
  obtain ⟨i, hi, hx⟩ := issue_next h
  rcases decodeUpc_eq_ok hi with ⟨hu, rfl⟩ | ⟨-, rfl⟩ | ⟨k, -, rfl⟩ | ⟨-, rfl⟩ | ⟨hu, rfl⟩ | ⟨hu, rfl⟩
  · rcases execExtract_next hx with ⟨-, rfl⟩ | ⟨-, ht⟩
    · exact .inl (by simp)
    · exact .inr (.inr (.inl ⟨hu, ht⟩))
  · exact .inl (by rw [execEndpts_next hx]; simp)
  · obtain ⟨-, rfl⟩ := execQuant_next hx; exact .inl rfl
  · rw [execPack_next hx]; exact .inl rfl
  · rcases execStore_next hx with ⟨-, rfl⟩ | ⟨-, ht⟩
    · exact .inl rfl
    · exact .inr (.inr (.inr ⟨hu, ht⟩))
  · rcases execNext_next hx with ⟨-, rfl⟩ | ⟨-, -, rfl⟩ | ⟨-, -, -, rfl⟩ | ⟨h0, hc, hr, rfl⟩
    · exact .inl rfl
    · exact .inl rfl
    · exact .inl rfl
    · exact .inr (.inl ⟨hu, by omega, hc, hr, rfl⟩)

/-- The code of a micro-operation's fault is SRC or OUT. -/
theorem faultCode_src_or_out (s : State) {e : ErrCode} (h : e = .src ∨ e = .out) :
    s.faultCode e = .src ∨ s.faultCode e = .out := by
  rcases faultCode_cases s e with he | ⟨he, -⟩
  · rwa [he]
  · exact he

/-- Settles O29: the encoder's move, and the access that lands, change STATE in the rows of the table. -/
theorem stateChangesAreTheTable : Obligations.StateChangesAreTheTable := by
  intro s t h
  rcases step_next h with ⟨q, h⟩ | ⟨op, rest, hq, -, h⟩
  · rcases encoderStep_next h with ⟨hb, h⟩ | ⟨-, rfl⟩
    · have hcode (e : ErrCode) (hw : s.params.workers = 1) : State.faultCode { s with inbox := q } e = e :=
        faultCode_of_one_worker (s := { s with inbox := q }) hw.le e
      rcases jobState_of_issue h with hsame | ⟨hu, hch, hc, hr, ht⟩ | ⟨hu, rfl⟩ | ⟨hu, rfl⟩
      · exact .inl hsame
      · exact .inr (.inr (.inl ⟨hb, hu.trans upcNext_eq, hch, hc, hr, ht⟩))
      · refine .inr (.inr (.inr (.inl ⟨hb, .inl (hu.trans upcExtract_eq), rfl, faultCode_src_or_out _ (.inl rfl),
          fun hw => ?_⟩)))
        exact iff_of_true (hcode .src hw) (hu.trans upcExtract_eq)
      · refine .inr (.inr (.inr (.inl ⟨hb, .inr (hu.trans upcStore_eq), rfl, faultCode_src_or_out _ (.inr rfl),
          fun hw => ?_⟩)))
        have hout : s.upc ≠ 0b0010000#7 := by rw [show s.upc = upcStore from hu]; decide
        rw [raiseFault_err, hcode .out hw]
        exact iff_of_false nofun hout
    · exact .inl rfl
  · rcases jobState_of_hostAccess h with hsame | ⟨rfl, h⟩ | ⟨hop, ht⟩
    · exact .inl hsame
    · exact (jobState_of_execStart h).imp id fun ⟨hs, hout⟩ => .inl ⟨hs, ⟨rest, hq⟩, hout⟩
    · refine .inr (.inr (.inr (.inr ⟨⟨rest, ?_⟩, ht⟩)))
      rcases hop with rfl | rfl
      · exact .inl hq
      · exact .inr hq

/-! ### A BUSY machine has a step (R157) -/

/-- A well-formed code with an operation names a micro-operation (R59, R61). -/
theorem decodeUpc_of_wellFormed {u : BitVec 7} (h : upcWellFormed u = true) (h0 : upcOp u ≠ 0#3) :
    ∃ i, decodeUpc u = .ok i := by
  have hall : ∀ u : BitVec 7, upcWellFormed u = true → upcOp u ≠ 0#3 → (decodeUpc u).isOk = true := by decide
  have hok := hall u h h0
  cases hd : decodeUpc u with
  | ok i => exact ⟨i, rfl⟩
  | error e => rw [hd] at hok; cases hok

/-- From every state EXTRACT answers a next state: the block or the fault. -/
theorem exec_extract_completes (s : State) : ∃ t, exec .extract s = .next t := by
  by_cases h : extractAdmitted s.image s.trow s.tcol s.ch = true
  · exact ⟨_, exec_extract_admitted h⟩
  · exact ⟨_, exec_extract_refused h⟩

/-- From every state STORE answers a next state: the write or the fault. -/
theorem exec_store_completes (s : State) : ∃ t, exec .store s = .next t := by
  by_cases h : storeAdmitted s.image s.trow s.tcol s.ch = true
  · exact ⟨_, exec_store_admitted h⟩
  · exact ⟨_, exec_store_refused h⟩

/-- Settles O37: UPC of a running job names a micro-operation; only QUANT asks for more, and its endpoints are ready. -/
theorem busyMachineAlwaysMoves : Obligations.BusyMachineAlwaysMoves := by
  intro s hinv hb
  have hrun := hinv.running hb
  obtain ⟨hwell, hop⟩ := hrun.upc
  obtain ⟨i, hi⟩ := decodeUpc_of_wellFormed hwell hop
  have hmoves : ∃ t, exec i s = .next t := by
    rcases decodeUpc_eq_ok hi with ⟨-, rfl⟩ | ⟨-, rfl⟩ | ⟨k, hu, rfl⟩ | ⟨-, rfl⟩ | ⟨-, rfl⟩ | ⟨-, rfl⟩
    · exact exec_extract_completes s
    · exact ⟨_, rfl⟩
    · have hready := hrun.endpoints (by rw [hu, upcOp_upcQuant]; decide)
      exact ⟨_, exec_quant_ready hready k⟩
    · exact ⟨_, rfl⟩
    · exact exec_store_completes s
    · exact exec_next_completes s
  obtain ⟨t, ht⟩ := hmoves
  exact ⟨i, t, hi, ht, fun hq => ((step_of_busy hq hb).trans (issue_of_decode hi)).trans ht⟩

end Sys2Proof.Proofs

/-! PROOFS. What the level of a job depends on (spec/44_block_encoder.md R122 to R124): not on the order of the blocks,
and on nothing but the image. -/

namespace Sys2Proof.Proofs

open Sys2Proof.Machine Sys2Proof.Laws

/-! ### The order of the blocks (R122) -/

theorem wf_storeBlocks (img : Image) (l : List (Nat × Nat × Fin 2)) {m : Mem} (h : Mem.wf m = true) :
    Mem.wf (l.foldl (storeBlock img) m) = true := by
  induction l generalizing m with
  | nil => exact h
  | cons b l ih => exact ih (wf_storeBlock img h b)

/-- Blocks with different slots leave the same OUT in any order: an offset lies in the slot of one of them or of none. -/
theorem storeBlocks_of_perm (img : Image) {l l' : List (Nat × Nat × Fin 2)} (hp : l.Perm l')
    (hl : (l.map fun b => img.slot b.1 b.2.1 b.2.2).Nodup) {m : Mem} (hm : Mem.wf m = true) :
    l.foldl (storeBlock img) m = l'.foldl (storeBlock img) m := by
  refine ext_of_read (wf_storeBlocks img l hm) (wf_storeBlocks img l' hm) fun a => ?_
  by_cases hin : ∃ b ∈ l, 8 * img.slot b.1 b.2.1 b.2.2 ≤ a ∧ a < 8 * img.slot b.1 b.2.1 b.2.2 + 8
  · obtain ⟨b, hb, hle, hlt⟩ := hin
    obtain ⟨i, rfl⟩ := Nat.exists_eq_add_of_le hle
    have hi : i < 8 := by omega
    rw [read_storeBlocks_inside img hl hm hb hi,
      read_storeBlocks_inside img ((hp.map _).nodup_iff.1 hl) hm (hp.mem_iff.1 hb) hi]
  · have hout : ∀ b ∈ l, a < 8 * img.slot b.1 b.2.1 b.2.2 ∨ 8 * img.slot b.1 b.2.1 b.2.2 + 8 ≤ a := by
      intro b hb
      by_contra hno
      exact hin ⟨b, hb, by omega⟩
    rw [read_storeBlocks_outside img hout, read_storeBlocks_outside img fun b hb => hout b (hp.mem_iff.2 hb)]

/-- Settles O44: the blocks of an image have different slots. -/
theorem blockOrderIsImmaterial : Obligations.BlockOrderIsImmaterial := by
  intro img m l hm hp
  exact storeBlocks_of_perm img hp ((hp.map _).nodup_iff.2 (nodup_slot_blocks img)) hm

/-! ### The job as the loop (R115, R124) -/

/-- Settles O45: a legal launch that the host leaves alone reaches DONE. -/
theorem jobReachesDone : Obligations.JobReachesDone := by
  intro s h hq
  obtain ⟨u, t, hstart, hrun, hdone⟩ := legalLaunch_reaches_done h (.inl hq)
  exact ⟨u, t, hstart, hrun.reaches, hrun.busy, hdone.state, hdone.err.trans h.accepted.clean, hdone.out,
    congrArg Image.src hdone.image, congrArg Image.width hdone.image, congrArg Image.height hdone.image,
    congrArg Image.stride hdone.image⟩

/-! ### The image alone decides the level (R123) -/

/-- What R123 lets the level depend on is the same: the dimensions, CH_BYTE and the SRC bytes of R33. -/
structure SameTexels (img img' : Image) : Prop where
  width : img'.width = img.width
  height : img'.height = img.height
  stride : img'.stride = img.stride
  chByte : ∀ ch, Params.chByte img'.params ch = Params.chByte img.params ch
  bytes : ∀ a, img.reads a = true → Mem.read img'.src a = Mem.read img.src a

theorem SameTexels.tilesX_eq {img img' : Image} (h : SameTexels img img') : img'.tilesX = img.tilesX :=
  congrArg (ceilDiv · 4) h.width

theorem SameTexels.tilesY_eq {img img' : Image} (h : SameTexels img img') : img'.tilesY = img.tilesY :=
  congrArg (ceilDiv · 4) h.height

theorem SameTexels.sampleOffset_eq {img img' : Image} (h : SameTexels img img') (r c : Nat) (ch : Fin 2) (k : Fin 16) :
    img'.sampleOffset r c ch k = img.sampleOffset r c ch k := by
  simp only [Image.sampleOffset, Image.texelOffset, Image.sampleRow, Image.sampleCol, h.width, h.height, h.stride,
    h.chByte]

/-- The samples of a block of the image are among the reads of the job (R33). -/
theorem reads_sampleOffset {img : Image} {r c : Nat} (hr : r < img.tilesY) (hc : c < img.tilesX) (ch : Fin 2)
    (k : Fin 16) : img.reads (img.sampleOffset r c ch k) = true := by
  obtain ⟨y, x, hy, hx, e⟩ := sampleOffset_mem_image hr hc ch k
  refine (reads_iff _ _).2 ⟨y, hy, x, hx, ?_⟩
  rw [e]
  fin_cases ch
  · exact .inl rfl
  · exact .inr rfl

theorem SameTexels.encodeBlock_eq {img img' : Image} (h : SameTexels img img') {r c : Nat} (hr : r < img.tilesY)
    (hc : c < img.tilesX) (ch : Fin 2) : encodeBlock img' r c ch = encodeBlock img r c ch := by
  refine congrArg encodeSamples (Vector.ext fun k hk => ?_)
  simp only [extract, Vector.getElem_ofFn, h.sampleOffset_eq]
  exact h.bytes _ (reads_sampleOffset hr hc ch ⟨k, hk⟩)

/-- Images with the same texels have the same bytes of the level, whatever OUT held. -/
theorem SameTexels.read_encodeLevel {img img' : Image} (h : SameTexels img img') {m m' : Mem} (hm : Mem.wf m = true)
    (hm' : Mem.wf m' = true) {a : Nat} (ha : a < img.outLen) :
    Mem.read (encodeLevel img' m') a = Mem.read (encodeLevel img m) a := by
  obtain ⟨hr, hc⟩ := blockOfSlot_lt (img := img) (n := a / 8) (by omega)
  have hslot := slot_blockOfSlot img (a / 8)
  generalize img.blockOfSlot (a / 8) = b at hr hc hslot
  have hi : a % 8 < 8 := Nat.mod_lt _ (by omega)
  have hoffset : 8 * (2 * (b.1 * img.tilesX + b.2.1) + b.2.2.val) + a % 8 = a := by
    rw [Image.slot] at hslot
    omega
  have hlevel := (levelHoldsEveryBlock img m hm).1 b.1 b.2.1 b.2.2 (a % 8) hr hc hi
  have hlevel' := (levelHoldsEveryBlock img' m' hm').1 b.1 b.2.1 b.2.2 (a % 8) (h.tilesY_eq ▸ hr) (h.tilesX_eq ▸ hc) hi
  rw [h.tilesX_eq, h.encodeBlock_eq hr hc, hoffset] at hlevel'
  rw [hoffset] at hlevel
  rw [hlevel, hlevel']

/-- Launches that agree as R123 asks have the same texels. -/
theorem sameTexels_of_launches {s s' : State} (hdims : sameDims s s') (h0 : s'.params.chByte0 = s.params.chByte0)
    (h1 : s'.params.chByte1 = s.params.chByte1)
    (hsrc : ∀ a, s.image.reads a = true → Mem.read s'.src a = Mem.read s.src a) : SameTexels s.image s'.image := by
  obtain ⟨hwidth, hheight, hstride⟩ := hdims
  exact ⟨hwidth, hheight, hstride, fun ch => by simp only [Params.chByte, image_params, h0, h1], hsrc⟩

theorem SameTexels.jobSteps_eq {s s' : State} (h : SameTexels s.image s'.image) : jobSteps s' = jobSteps s := by
  rw [jobSteps, jobSteps, h.tilesX_eq, h.tilesY_eq]

/-- Settles O46: both launches reach DONE with the levels of images that have the same texels. -/
theorem levelDependsOnlyOnTheImage : Obligations.LevelDependsOnlyOnTheImage := by
  intro s s' h h' hq hq' hm hm' hdims h0 h1 hsrc
  have htexels := sameTexels_of_launches hdims h0 h1 hsrc
  obtain ⟨u, t, hstart, hrun, -, hdone, -, hout, -⟩ := jobReachesDone s h hq
  obtain ⟨u', t', hstart', hrun', -, hdone', -, hout', -⟩ := jobReachesDone s' h' hq'
  rw [htexels.jobSteps_eq] at hrun'
  refine ⟨u, u', t, t', hstart, hstart', hrun, hrun', hdone, hdone', fun a ha => ?_⟩
  rw [hout, hout']
  exact htexels.read_encodeLevel hm hm' ha

/-- Settles O53: the same for the two jobs as the host runs them. -/
theorem hostLevelDependsOnlyOnTheImage : Obligations.HostLevelDependsOnlyOnTheImage := by
  intro s s' rest rest' h h' hm hm' hdims h0 h1 hsrc
  have htexels := sameTexels_of_launches hdims h0 h1 hsrc
  obtain ⟨t, hrun, -, -, hdone, -, -, -, hout, -⟩ := hostRunsTheJob s rest h
  obtain ⟨t', hrun', -, -, hdone', -, -, -, hout', -⟩ := hostRunsTheJob s' rest' h'
  rw [htexels.jobSteps_eq] at hrun'
  refine ⟨t, t', hrun, hrun', hdone, hdone', fun a ha => ?_⟩
  rw [hout, hout']
  exact htexels.read_encodeLevel hm hm' ha

end Sys2Proof.Proofs

/-! PROOFS. Faults and ERROR (spec/60_exceptions.md R135 to R144): what raises a fault, what its entry does, and what
leaves ERROR. -/

namespace Sys2Proof.Proofs

open Sys2Proof.Machine Sys2Proof.Laws

/-! ### Every instruction completes, and the causes of faults -/

/-- Settles O5: a fault is a next state, and QUANT's precondition is given. -/
theorem everyInstructionCompletes : Obligations.EveryInstructionCompletes := by
  intro i s hquant
  cases i with
  | extract => exact exec_extract_completes s
  | endpts => exact ⟨_, rfl⟩
  | quant k => exact ⟨_, exec_quant_of_admits ((quantizeAdmits_iff _ _ _).2 (hquant k rfl))⟩
  | pack => exact ⟨_, rfl⟩
  | store => exact exec_store_completes s
  | next => exact exec_next_completes s
  | start => exact exec_start_completes s
  | reset => exact ⟨_, rfl⟩

/-- Settles O26: by the frame of fault entry. -/
theorem faultEntryDoesNothingElse : Obligations.FaultEntryDoesNothingElse :=
  fun s e => ⟨rfl, rfl, rfl, faultFrame_raiseFault s e⟩

/-- A write that the platform does not admit is not backed or refused (R35, R139). -/
theorem refused_of_storeAdmitted_false {img : Image} {r c : Nat} {ch : Fin 2} (h : storeAdmitted img r c ch = false) :
    img.params.outCap < 8 * img.slot r c ch + 8 ∨ 8 * img.slot r c ch ∈ img.params.outRefused := by
  by_contra hno
  obtain ⟨hcap, hwilling⟩ := not_or.1 hno
  rw [(storeAdmitted_iff _ _ _ _).2 ⟨Nat.le_of_not_lt hcap, hwilling⟩] at h
  cases h

/-- Settles O27: START, EXTRACT and STORE alone have an exit to ERROR, and each such exit names its cause. -/
theorem onlyTheStatedCausesRaise : Obligations.OnlyTheStatedCausesRaise := by
  intro i s t h hs ht
  cases i with
  | extract =>
    rcases execExtract_next h with ⟨-, rfl⟩ | ⟨hread, rfl⟩
    · exact absurd (by simpa using ht) hs
    · exact .inr (.inr (.inl ⟨rfl, exists_sampleOffset_ge hread, faultCode_src_cases s⟩))
  | endpts =>
    rw [execEndpts_next h] at ht
    exact absurd (by simpa using ht) hs
  | quant k => obtain ⟨-, rfl⟩ := execQuant_next h; exact absurd ht hs
  | pack => rw [execPack_next h] at ht; exact absurd ht hs
  | store =>
    rcases execStore_next h with ⟨-, rfl⟩ | ⟨hwrite, rfl⟩
    · exact absurd ht hs
    · exact .inr (.inr (.inr ⟨rfl, refused_of_storeAdmitted_false hwrite, faultCode_out_cases s⟩))
  | next =>
    rcases execNext_next h with ⟨-, rfl⟩ | ⟨-, -, rfl⟩ | ⟨-, -, -, rfl⟩ | ⟨-, -, -, rfl⟩
    · exact absurd ht hs
    · exact absurd ht hs
    · exact absurd ht hs
    · cases ht
  | start =>
    rcases jobState_of_execStart h with hsame | ⟨-, ⟨hbusy, -⟩ | ⟨hdone, -⟩ | ⟨-, he, hcfg⟩ | ⟨-, he, hw, halloc⟩⟩
    · exact absurd (hsame.symm.trans ht) hs
    · cases hbusy.symm.trans ht
    · cases hdone.symm.trans ht
    · exact .inl ⟨rfl, he, hcfg⟩
    · exact .inr (.inl ⟨rfl, he, hw, halloc⟩)
  | reset => cases h; cases ht

/-! ### ERROR is sticky (R144) -/

/-- What ERROR keeps of the machine: STATUS, the position, the datapath and UPC. -/
def Stuck (s t : State) : Prop := sameStatus s t ∧ samePosition s t ∧ sameDatapath s t ∧ t.upc = s.upc

/-- The dimensions, the memories and the host's side are all that a stuck machine may change. -/
theorem stuck_update (s : State) {width height stride free : Nat} {src out : Mem} {inbox : List HostEvent}
    {replies : List Reply} {lease : Bool} {job : Job} :
    Stuck s { s with
      width := width, height := height, stride := stride, src := src, out := out, inbox := inbox, replies := replies
      lease := lease, job := job, free := free } :=
  ⟨⟨rfl, rfl⟩, ⟨rfl, rfl, rfl⟩, ⟨rfl, ⟨rfl, rfl, rfl, rfl⟩, rfl, rfl⟩, rfl⟩

/-- In ERROR an access of the host leaves the machine stuck, START among them, unless it is RESET or the reset input. -/
theorem hostAccess_in_error {op : HostOp} {s t : State} (hs : s.jobState = .error) (h : hostAccess op s = .next t) :
    Stuck s t ∨ ((op = .writeReg 0 2 ∨ op = .resetInput) ∧ t = s.enterReset) := by
  cases op with
  | writeReg n v =>
    rcases hostWriteReg_next h with ⟨-, -, hstart⟩ | ⟨rfl, rfl, rfl⟩ | ⟨-, -, -, rfl⟩ | ⟨-, rfl⟩
    · cases (exec_start_ignored (.inr hs)).symm.trans hstart
      exact .inl (stuck_update s)
    · exact .inr ⟨.inl rfl, rfl⟩
    · exact .inl (stuck_update t)
    · rw [writeDims_eq]; exact .inl (stuck_update s)
  | readReg n => cases h; rw [hostReadReg_eq]; exact .inl (stuck_update s)
  | putSrc off bytes => obtain ⟨-, rfl⟩ := hostPutSrc_next h; exact .inl (stuck_update s)
  | putOut off bytes => obtain ⟨-, rfl⟩ := hostPutOut_next h; exact .inl (stuck_update s)
  | getOut off len => obtain ⟨-, rfl⟩ := hostGetOut_next h; exact .inl (stuck_update s)
  | waitJob => cases h; exact .inl (stuck_update s)
  | resetInput => cases h; exact .inr ⟨.inr rfl, rfl⟩

/-- Settles O28: in ERROR the encoder does not move, and of the host's accesses only the two resets leave ERROR. -/
theorem errorIsSticky : Obligations.ErrorIsSticky := by
  intro s t hs h
  rcases step_next h with ⟨q, h⟩ | ⟨op, rest, hq, -, h⟩
  · rcases encoderStep_next h with ⟨hb, -⟩ | ⟨-, rfl⟩
    · cases hs.symm.trans hb
    · exact .inl (stuck_update s)
  · rcases hostAccess_in_error (s := { s with inbox := rest }) hs h with hstuck | ⟨hop, rfl⟩
    · exact .inl hstuck
    · refine .inr ⟨rest, hop.imp ?_ ?_, rfl, rfl, rfl, rfl, rfl, rfl⟩ <;> rintro rfl <;> exact hq

end Sys2Proof.Proofs

/-! PROOFS. A slot of OUT that the host reads before it has read DONE (spec/60_exceptions.md R143,
spec/70_reset_and_hazards.md R160). -/

namespace Sys2Proof.Proofs

open Sys2Proof.Machine Sys2Proof.Laws

/-- Over jobs that own no byte, a byte of a job that is not completed is the one of the block it has stored, if any,
else the one from before START. -/
theorem outValue_of_open_job {j : Job} {js : List Job} (hset : j.settled = []) (hputs : j.outPuts = [])
    (hopen : j.completed = false) (hjs : ∀ j ∈ js, j.len = 0) {n i : Nat} (hi : i < 8) (hlen : 8 * n + i < j.len)
    (tick : Nat) (now : Mem) :
    outValue tick (8 * n + i) now (j :: js) =
      (j.stored tick js.length n).elim (Mem.read j.before (8 * n + i)) fun v => v.extractLsb' (8 * i) 8 := by
  have hn : (8 * n + i) / 8 = n := by omega
  have hm : (8 * n + i) % 8 = i := by omega
  rw [outValue, if_neg (by simp [hset]), if_pos hlen, if_neg (by simp [hopen]), putAt_of_nil hputs, hn, hm]
  cases j.stored tick js.length n with
  | none => exact outValue_of_no_job hjs tick _ _
  | some v => rfl

/-- Settles O49: for a slot and a read the choice is one, whether the job has stored its block. -/
theorem slotReadsOldOrNew : Obligations.SlotReadsOldOrNew := by
  intro s off len rest hq hcap hnot hearlier hsrc hputs hset hlen
  refine ⟨_, outBytes s off len, step_getOut hq hcap rfl, rfl, length_outBytes s off len,
    fun r c ch hr hc hle hend => ?_⟩
  have hopen : s.levelReadable = false := Bool.eq_false_iff.2 fun h => hnot ((levelReadable_iff s).1 h)
  have hlevel := slot_in_level ch hr hc
  have hbyte {i : Nat} (hi : i < 8) := outValue_of_open_job (j := { s.job with completed := s.levelReadable })
    (n := s.job.image.slot r c ch) hset hputs hopen hearlier hi (by dsimp only; omega) s.free s.out
  have hanswer {i : Nat} (hi : i < 8) : (outBytes s off len).getD (8 * s.job.image.slot r c ch + i - off) 0 =
      s.outByte (8 * s.job.image.slot r c ch + i) := by
    rw [getD_outBytes s off (by omega)]
    congr 1
    omega
  cases hst : Job.stored { s.job with completed := s.levelReadable } s.free s.earlier.length
    (s.job.image.slot r c ch) with
  | none => exact .inl fun i hi => by rw [hanswer hi, State.outByte, hbyte hi, hst]; rfl
  | some v =>
    have hv := (block_of_quiet (j := { s.job with completed := s.levelReadable }) hsrc _ r ch hc).symm.trans
      (stored_eq_some hst)
    split at hv
    · cases hv
      exact .inr fun i hi => by rw [hanswer hi, State.outByte, hbyte hi, hst]; rfl
    · cases hv

end Sys2Proof.Proofs

/-! PROOFS. A job with accesses the platform may refuse (spec/60_exceptions.md R138 to R143): how each block of it ends,
and with it where the job ends and what OUT holds at every step. -/

namespace Sys2Proof.Proofs

open Sys2Proof.Machine Sys2Proof.Laws

/-! ### OUT while a block is encoded -/

/-- A machine that is not BUSY, with nothing pending, stays as it is. -/
theorem runSteps_of_not_busy {s : State} (hq : s.inbox = []) (hb : s.jobState ≠ .busy) (n : Nat) :
    runSteps n s = .next s := by
  induction n with
  | zero => rfl
  | succ n ih => rw [runSteps_succ (step_of_not_busy hq hb), ih]

/-- From EXTRACT to STORE, OUT is not touched. -/
theorem runSteps_to_store_out {s : State} (hs : Undisturbed s) (hu : s.upc = upcExtract)
    (hread : extractAdmitted s.image s.trow s.tcol s.ch = true) {n : Nat} (hn : n ≤ 19) :
    ∃ v, runSteps n s = .next v ∧ v.out = s.out := by
  obtain ⟨a, hextract, hsa, hua, -⟩ := busyRun_extract hs hu hread
  have ha := hs.congr hsa.toSameLaunch
  obtain ⟨b, hendpts, hab, hub, -, -, -, hready⟩ := busyRun_endpts ha hua
  have hrun := hextract.trans hendpts
  have hout : b.out = s.out := hab.out.trans hsa.out
  match n with
  | 0 => exact ⟨s, rfl, rfl⟩
  | 1 => exact ⟨a, hextract.reaches, hsa.out⟩
  | n + 2 =>
    rcases Nat.lt_or_ge 16 n with hlast | hlane
    · obtain ⟨c, hpack, hbc, -⟩ := busyRun_pack (ha.congr hab.toSameLaunch) hub hready
      obtain rfl : n = 17 := by omega
      exact ⟨c, (hrun.trans hpack).reaches, hbc.out.trans hout⟩
    · obtain ⟨codes, hlanes, -⟩ := busyRun_lanes (ha.congr hab.toSameLaunch) hready hub hlane
      rw [Nat.add_comm]
      exact ⟨_, (hrun.trans hlanes).reaches, hout⟩

/-! ### The code of a refused access -/

/-- A code that a refused access of the image raises (R138, R139, R141). -/
def FaultCause (s : State) (e : ErrCode) : Prop := (e = .src ∧ someReadRefused s) ∨ (e = .out ∧ someOutFault s)

theorem FaultCause.congr {s t : State} {e : ErrCode} (h : FaultCause t e) (himg : t.image = s.image) :
    FaultCause s e := by
  have hparams : t.params = s.params := congrArg Image.params himg
  simpa only [FaultCause, someReadRefused, someOutFault, himg, hparams] using h

/-- A block of the image with a refused read is a refused read of the job. -/
theorem someReadRefused_of_block {s : State} {r c : Nat} {ch : Fin 2} (hr : r < s.image.tilesY)
    (hc : c < s.image.tilesX) {k : Fin 16} (hk : s.params.srcLen ≤ s.image.sampleOffset r c ch k) : someReadRefused s :=
  ⟨_, reads_sampleOffset hr hc ch k, hk⟩

/-- The fault of EXTRACT at a block of the image. -/
theorem faultCause_extract {s : State} (hr : s.trow < s.image.tilesY) (hc : s.tcol < s.image.tilesX)
    (h : extractAdmitted s.image s.trow s.tcol s.ch = false) : FaultCause s (s.faultCode .src) := by
  obtain ⟨k, hk⟩ := exists_sampleOffset_ge h
  rcases faultCode_src_cases s with e | ⟨e, -, hout⟩
  · exact .inl ⟨e, someReadRefused_of_block hr hc hk⟩
  · exact .inr ⟨e, hout⟩

/-- The fault of STORE at a block of the image, whose reads were admitted. -/
theorem faultCause_store {s : State} (hr : s.trow < s.image.tilesY) (hc : s.tcol < s.image.tilesX)
    (hread : extractAdmitted s.image s.trow s.tcol s.ch = true)
    (h : storeAdmitted s.image s.trow s.tcol s.ch = false) : FaultCause s (s.faultCode .out) := by
  rcases faultCode_out_cases s with e | ⟨e, -, b, hb, k, hk⟩
  · exact .inr ⟨e, someOutFault_of_mem_blocks (b := (s.trow, s.tcol, s.ch)) ((mem_blocks _ _).2 ⟨hr, hc⟩) hread h⟩
  · obtain ⟨hbr, hbc⟩ := (mem_blocks _ _).1 hb
    exact .inl ⟨e, someReadRefused_of_block hbr hbc hk⟩

/-! ### How a block ends -/

/-- The accesses of the block of slot `n` are admitted (R31, R35). -/
def SlotAdmitted (img : Image) (n : Nat) : Prop :=
  extractAdmitted img (img.blockOfSlot n).1 (img.blockOfSlot n).2.1 (img.blockOfSlot n).2.2 = true ∧
    storeAdmitted img (img.blockOfSlot n).1 (img.blockOfSlot n).2.1 (img.blockOfSlot n).2.2 = true

/-- A job the host leaves alone, at the start of the block of slot `n` of its level. -/
structure AtBlock (s : State) (n : Nat) : Prop where
  busy : s.jobState = .busy
  inbox : s.inbox = []
  quiet : s.job.srcPuts = []
  upc : s.upc = upcExtract
  slot : AtSlot s n
  inLevel : 8 * n < s.outLen

theorem AtBlock.undisturbed {s : State} {n : Nat} (h : AtBlock s n) : Undisturbed s := ⟨h.busy, .inl h.inbox, h.quiet⟩

theorem AtBlock.admitted_iff {s : State} {n : Nat} (h : AtBlock s n) :
    SlotAdmitted s.image n ↔
      extractAdmitted s.image s.trow s.tcol s.ch = true ∧ storeAdmitted s.image s.trow s.tcol s.ch = true := by
  rw [SlotAdmitted, ← h.slot]

/-- The end of a job by a refused access: ERROR, with the code of one; the image is the same, and nothing is pending. -/
structure Faulted (s t : State) : Prop where
  state : t.jobState = .error
  err : FaultCause s t.err
  image : t.image = s.image
  inbox : t.inbox = []

theorem Faulted.congr {s t u : State} (h : Faulted t u) (himg : t.image = s.image) : Faulted s u :=
  ⟨h.state, h.err.congr himg, h.image.trans himg, h.inbox⟩

/-- Within 20 steps a refused access ends the job, and no step until then touches OUT. -/
def EndsInFault (s : State) : Prop :=
  ∃ m t, m ≤ 20 ∧ runSteps m s = .next t ∧ Faulted s t ∧ ∀ i, i ≤ m → ∃ v, runSteps i s = .next v ∧ v.out = s.out

section Block

variable {s : State} {n : Nat} (h : AtBlock s n)
include h

/-- A refused read ends the job at EXTRACT (R138). -/
theorem AtBlock.fault_of_read (hread : extractAdmitted s.image s.trow s.tcol s.ch = false) : EndsInFault s := by
  obtain ⟨hr, hc⟩ := h.slot.tile h.inLevel
  have hrun := busyRun_of_exec h.undisturbed (by rw [h.upc, decodeUpc_extract])
    (exec_extract_refused (Bool.eq_false_iff.1 hread))
  refine ⟨1, _, by omega, hrun.reaches, ⟨rfl, faultCause_extract hr hc hread, rfl, h.inbox⟩, fun i hi => ?_⟩
  rcases Nat.le_one_iff_eq_zero_or_eq_one.1 hi with rfl | rfl
  · exact ⟨s, rfl, rfl⟩
  · exact ⟨_, hrun.reaches, rfl⟩

/-- A refused write ends the job at STORE (R139). -/
theorem AtBlock.fault_of_write (hread : extractAdmitted s.image s.trow s.tcol s.ch = true)
    (hwrite : storeAdmitted s.image s.trow s.tcol s.ch = false) : EndsInFault s := by
  have hs := h.undisturbed
  obtain ⟨hr, hc⟩ := h.slot.tile h.inLevel
  obtain ⟨a, hrun, hsa, hua, -⟩ := busyRun_to_store hs h.upc hread
  obtain ⟨er, ec, ech⟩ := hsa.position
  have hwrite' : storeAdmitted a.image a.trow a.tcol a.ch = false := by rw [hsa.image, er, ec, ech, hwrite]
  have hcause : FaultCause a (a.faultCode .out) := by
    refine faultCause_store ?_ ?_ ?_ hwrite' <;> simpa only [hsa.image, er, ec, ech]
  have hall := hrun.trans (busyRun_of_exec (hs.congr hsa.toSameLaunch) (by rw [hua, decodeUpc_store])
    (exec_store_refused (Bool.eq_false_iff.1 hwrite')))
  refine ⟨20, _, le_rfl, hall.reaches, ⟨rfl, hcause.congr hsa.image, hsa.image, hsa.inbox.trans h.inbox⟩,
    fun i hi => ?_⟩
  rcases Nat.lt_or_ge i 20 with hlt | hge
  · exact runSteps_to_store_out hs h.upc hread (by omega)
  · obtain rfl : i = 20 := by omega
    exact ⟨_, hall.reaches, hsa.out⟩

/-- A block with a refused access ends the job. -/
theorem AtBlock.endsInFault (hno : ¬ SlotAdmitted s.image n) : EndsInFault s := by
  rw [h.admitted_iff] at hno
  cases hread : extractAdmitted s.image s.trow s.tcol s.ch with
  | false => exact h.fault_of_read hread
  | true => exact h.fault_of_write hread (Bool.eq_false_iff.2 fun hwrite => hno ⟨hread, hwrite⟩)

/-- A block whose accesses are admitted is stored after 21 steps, in one of them, and the next block follows or the job
is DONE (R115, R116). -/
theorem AtBlock.stored (hadm : SlotAdmitted s.image n) :
    ∃ t, runSteps 21 s = .next t ∧ t.image = s.image ∧
      t.out = storeBlock s.image s.out (s.image.blockOfSlot n) ∧
      (AtBlock t (n + 1) ∨ (s.outLen = 8 * (n + 1) ∧ t.jobState = .done ∧ t.inbox = [])) ∧
      ∀ i, i < 21 → ∃ v, runSteps i s = .next v ∧ (v.out = s.out ∨ v.out = t.out) := by
  have hs := h.undisturbed
  obtain ⟨hread, hwrite⟩ := h.admitted_iff.1 hadm
  obtain ⟨a, hrun, hsa, ⟨er, ec, ech⟩, hua, hout⟩ := busyRun_block hs h.upc hread hwrite
  have ha := hs.congr hsa
  have hat : AtSlot a n := by rw [AtSlot, er, ec, ech, hsa.image]; exact h.slot
  have hbefore {i : Nat} (hi : i < 21) : ∃ v, runSteps i s = .next v ∧ (v.out = s.out ∨ v.out = a.out) := by
    rcases Nat.lt_or_ge i 20 with hlt | hge
    · obtain ⟨v, hv, e⟩ := runSteps_to_store_out hs h.upc hread (n := i) (by omega)
      exact ⟨v, hv, .inl e⟩
    · obtain rfl : i = 20 := by omega
      exact ⟨a, hrun.reaches, .inr rfl⟩
  rw [show (s.trow, s.tcol, s.ch) = _ from h.slot] at hout
  rcases exec_next_at_slot hat (by rw [hsa.outLen]; exact h.inLevel) with ⟨hlt, r, c, ch, hnext, hpos⟩ | ⟨hlast, hnext⟩
  · have hgo := busyRun_of_exec ha (by rw [hua, decodeUpc_next]) hnext
    exact ⟨_, (hrun.trans hgo).reaches, hsa.image, hout,
      .inl ⟨ha.busy, hsa.inbox.trans h.inbox, ha.quiet, rfl, hpos, hlt⟩, fun _ => hbefore⟩
  · have hdone := busyRun_of_exec ha (by rw [hua, decodeUpc_next]) hnext
    exact ⟨_, (hrun.trans hdone).reaches, hsa.image, hout,
      .inr ⟨hsa.outLen ▸ hlast, rfl, hsa.inbox.trans h.inbox⟩, fun _ => hbefore⟩

end Block

/-! ### OUT at every step (R126, R143) -/

/-- At every step of a job, and after its end, OUT holds the blocks of the first slots and is otherwise as it was. -/
theorem AtBlock.out_at_step {s : State} {n : Nat} {m : Mem} (h : AtBlock s n) (hout : s.out = storeSlots s.image m n)
    (i : Nat) : ∃ v k, runSteps i s = .next v ∧ v.out = storeSlots s.image m k ∧ 8 * k ≤ s.outLen := by
  induction i using Nat.strong_induction_on generalizing s n with
  | _ i ih =>
    by_cases hadm : SlotAdmitted s.image n
    · obtain ⟨t, hrun, himg, ht, hend, hbefore⟩ := h.stored hadm
      have hlen : t.outLen = s.outLen := congrArg Image.outLen himg
      have hsucc : t.out = storeSlots s.image m (n + 1) := by rw [ht, hout, storeSlots_succ]
      have hle : 8 * (n + 1) ≤ s.outLen := hend.elim (fun hat => hlen ▸ hat.inLevel.le) fun hlast => hlast.1.ge
      rcases Nat.lt_or_ge i 21 with hi | hi
      · obtain ⟨v, hv, e | e⟩ := hbefore i hi
        · exact ⟨v, n, hv, e.trans hout, h.inLevel.le⟩
        · exact ⟨v, n + 1, hv, e.trans hsucc, hle⟩
      · obtain ⟨j, rfl⟩ := Nat.exists_eq_add_of_le hi
        rw [runSteps_add hrun]
        rcases hend with hat | ⟨-, hdone, hq⟩
        · rw [← himg, ← hlen]
          exact ih j (by omega) hat (himg ▸ hsucc)
        · exact ⟨t, n + 1, runSteps_of_not_busy hq (by simp [hdone]) j, hsucc, hle⟩
    · obtain ⟨l, t, -, hrun, hfault, hbefore⟩ := h.endsInFault hadm
      rcases Nat.le_total i l with hi | hi
      · obtain ⟨v, hv, e⟩ := hbefore i hi
        exact ⟨v, n, hv, e.trans hout, h.inLevel.le⟩
      · obtain ⟨v, hv, e⟩ := hbefore l le_rfl
        cases hrun.symm.trans hv
        obtain ⟨j, rfl⟩ := Nat.exists_eq_add_of_le hi
        exact ⟨t, n, (runSteps_add hrun j).trans (runSteps_of_not_busy hfault.inbox (by simp [hfault.state]) j),
          e.trans hout, h.inLevel.le⟩

/-- An accepted START with bytes to write is at the first block of its level (R118). -/
theorem start_atBlock {s : State} (h : Accepted s) (hq : s.inbox = []) (h0 : s.outLen ≠ 0) :
    ∃ u, exec .start s = .next u ∧ AtBlock u 0 ∧ u.image = s.image ∧ u.out = s.out :=
  ⟨_, exec_start_opens h.state h.legalStride h.backedOut h0,
    ⟨rfl, hq, rfl, rfl, atSlot_zero rfl rfl rfl, Nat.pos_of_ne_zero h0⟩, rfl, rfl⟩

/-- At every step after an accepted START, OUT holds the blocks of the first slots and is otherwise as it was. -/
theorem start_out_at_step {s : State} (h : Accepted s) (hq : s.inbox = []) :
    ∃ u, exec .start s = .next u ∧
      ∀ i, ∃ v k, runSteps i u = .next v ∧ v.out = storeSlots s.image s.out k ∧ 8 * k ≤ s.outLen := by
  by_cases h0 : s.outLen = 0
  · exact ⟨_, exec_start_empty h.state h.legalStride h0,
      fun i => ⟨_, 0, runSteps_of_not_busy (s := (s.launch 0).setStatus .done s.err) hq nofun i, rfl, Nat.zero_le _⟩⟩
  · obtain ⟨u, hu, hat, himg, hout⟩ := start_atBlock h hq h0
    have hlen : u.outLen = s.outLen := congrArg Image.outLen himg
    rw [← himg, ← hout, ← hlen]
    exact ⟨u, hu, hat.out_at_step rfl⟩

/-- OUT with the blocks of the first `k` slots, slot by slot. -/
theorem read_storeSlots (img : Image) {m : Mem} (hm : Mem.wf m = true) (k n : Nat) {i : Nat} (hi : i < 8) :
    Mem.read (storeSlots img m k) (8 * n + i) =
      if n < k then (encodeBlock img (img.blockOfSlot n).1 (img.blockOfSlot n).2.1
        (img.blockOfSlot n).2.2).extractLsb' (8 * i) 8
      else Mem.read m (8 * n + i) := by
  have hslots : ((List.range k).map img.blockOfSlot).map (fun b => img.slot b.1 b.2.1 b.2.2) = List.range k := by
    rw [List.map_map]
    exact (List.map_congr_left fun n _ => slot_blockOfSlot img n).trans (List.map_id _)
  split
  · next hn =>
    have hread := read_storeBlocks_inside img (by rw [hslots]; exact List.nodup_range) hm
      (List.mem_map_of_mem (f := img.blockOfSlot) (List.mem_range.2 hn)) hi
    rwa [slot_blockOfSlot] at hread
  · next hn =>
    refine read_storeBlocks_outside img (fun b hb => .inr ?_) m
    have hslot := List.mem_map_of_mem (f := fun b : Nat × Nat × Fin 2 => img.slot b.1 b.2.1 b.2.2) hb
    rw [hslots, List.mem_range] at hslot
    omega

/-- Settles O54: at every step the slots below some number hold their blocks, and the rest of OUT is as it was. -/
theorem eachSlotIsOldOrNew : Obligations.EachSlotIsOldOrNew := by
  intro s h hq hm
  obtain ⟨u, hu, hsteps⟩ := start_out_at_step h hq
  refine ⟨u, hu, fun n => ?_⟩
  obtain ⟨v, k, hv, hout, hk⟩ := hsteps n
  refine ⟨v, hv, fun r c ch hr hc => ?_, fun a ha => ?_⟩
  · have hread {i : Nat} (hi : i < 8) := read_storeSlots s.image hm k (s.image.slot r c ch) hi
    rw [← hout, blockOfSlot_slot s.image r ch hc] at hread
    by_cases hn : s.image.slot r c ch < k
    · exact .inr fun i hi => (hread hi).trans (if_pos hn)
    · exact .inl fun i hi => (hread hi).trans (if_neg hn)
  · have hread := read_storeSlots s.image hm k (a / 8) (Nat.mod_lt a (by omega : 8 > 0))
    rw [if_neg (by omega), Nat.div_add_mod] at hread
    rw [hout, hread]

/-! ### The end of a job with a refused access (R141) -/

/-- A job with a refused access in a slot that is still to come ends in ERROR, within 21 steps a slot. -/
theorem AtBlock.reaches_fault {s : State} {n d : Nat} (h : AtBlock s n) (hd : s.outLen = 8 * (n + d)) {j : Nat}
    (hnj : n ≤ j) (hj : 8 * j < s.outLen) (hno : ¬ SlotAdmitted s.image j) :
    ∃ m t, m ≤ 21 * d ∧ runSteps m s = .next t ∧ Faulted s t := by
  induction d generalizing s n with
  | zero => omega
  | succ d ih =>
    by_cases hadm : SlotAdmitted s.image n
    · have hne : j ≠ n := fun e => hno (e ▸ hadm)
      obtain ⟨t, hrun, himg, -, hat | ⟨hlast, -⟩, -⟩ := h.stored hadm
      · have hlen : t.outLen = s.outLen := congrArg Image.outLen himg
        obtain ⟨m, u, hm, hmu, hfault⟩ := ih hat (by omega) (by omega) (by omega) (himg ▸ hno)
        exact ⟨21 + m, u, by omega, (runSteps_add hrun m).trans hmu, hfault.congr himg⟩
      · omega
    · obtain ⟨m, t, hm, hrun, hfault, -⟩ := h.endsInFault hadm
      exact ⟨m, t, by omega, hrun, hfault⟩

/-- A job some access of which is refused has a slot whose block has a refused access. -/
theorem exists_slot_refused {s : State} (h : someReadRefused s ∨ someWriteRefused s) :
    ∃ n, 8 * n < s.outLen ∧ ¬ SlotAdmitted s.image n := by
  have hblock {r c : Nat} {ch : Fin 2} (hr : r < s.image.tilesY) (hc : c < s.image.tilesX)
      (hno : ¬(extractAdmitted s.image r c ch = true ∧ storeAdmitted s.image r c ch = true)) :
      ∃ n, 8 * n < s.outLen ∧ ¬ SlotAdmitted s.image n := by
    have hlevel : _ ≤ s.outLen := slot_in_level ch hr hc
    exact ⟨s.image.slot r c ch, by omega, by rwa [SlotAdmitted, blockOfSlot_slot s.image r ch hc]⟩
  rcases h with ⟨a, hread, ha⟩ | ⟨r, c, ch, hr, hc, hrefused⟩
  · obtain ⟨y, hy, x, hx, e⟩ := (reads_iff _ _).1 hread
    obtain ⟨ch, rfl⟩ : ∃ ch, a = s.image.texelOffset y x ch := e.elim (⟨0, ·⟩) (⟨1, ·⟩)
    obtain ⟨r, c, k, hr, hc, e⟩ := texelOffset_mem_blocks hy hx ch
    refine hblock hr hc (ch := ch) fun hadm => Nat.not_lt.2 ha ?_
    rw [← e]
    exact (extractAdmitted_iff _ _ _ _).1 hadm.1 k
  · refine hblock hr hc (ch := ch) fun hadm => ?_
    obtain ⟨hcap, hwilling⟩ := (storeAdmitted_iff _ _ _ _).1 hadm.2
    exact hrefused.elim (Nat.not_lt.2 hcap) hwilling

/-- Settles O47: the job reaches a slot with a refused access, whose fault has the code of one. -/
theorem refusedAccessEndsInError : Obligations.RefusedAccessEndsInError := by
  intro s h hq hrefused
  obtain ⟨j, hj, hno⟩ := exists_slot_refused hrefused
  obtain ⟨u, hu, hat, himg, -⟩ := start_atBlock h hq (by omega)
  have hlen : u.outLen = s.outLen := congrArg Image.outLen himg
  have hslots : s.outLen = 8 * (0 + 2 * (s.image.tilesX * s.image.tilesY)) := by
    rw [State.outLen, Image.outLen]
    omega
  obtain ⟨n, t, hn, hrun, hfault⟩ :=
    hat.reaches_fault (hlen.trans hslots) (Nat.zero_le j) (hlen ▸ hj) (himg ▸ hno)
  obtain ⟨hstate, hcause, htimg, -⟩ := hfault.congr himg
  have hsrc : t.src = s.src := congrArg Image.src htimg
  refine ⟨u, n, t, hu, by rw [jobSteps]; omega, hrun, hstate, fun hnot => ?_, fun hnot => ?_,
    hcause.imp And.left And.left, ⟨congrArg Image.width htimg, congrArg Image.height htimg,
    congrArg Image.stride htimg⟩, fun a => by rw [hsrc]⟩
  · exact hcause.elim And.left fun hout => absurd hout.2 hnot
  · exact hcause.elim (fun hread => absurd hread.2 hnot) And.left

end Sys2Proof.Proofs

/-! PROOFS. The host's puts during a job and the reset input (spec/70_reset_and_hazards.md R155, R158, R159). -/

namespace Sys2Proof.Proofs

open Sys2Proof.Machine Sys2Proof.Laws

/-- Settles O33: a put writes neither STATUS, UPC nor the position, and every step keeps the invariant. -/
theorem hostPutsDoNotStopTheJob : Obligations.HostPutsDoNotStopTheJob := by
  intro s off bytes rest hinv hb hput
  rcases hput with ⟨hq, hcap⟩ | ⟨hq, hcap⟩
  · have hstep := step_putSrc hq hcap
    exact ⟨_, hstep, invariantKeptByEveryStep s _ hinv hstep, hb, rfl, rfl, rfl, rfl⟩
  · have hstep := step_putOut hq hcap
    exact ⟨_, hstep, invariantKeptByEveryStep s _ hinv hstep, hb, rfl, rfl, rfl, rfl⟩

/-- The reset input, when due, acts as RESET does (R120, R155). -/
theorem step_resetInput {s : State} {rest : List HostEvent} (hq : s.inbox = ⟨0, .resetInput⟩ :: rest) :
    step s = exec .reset { s with inbox := rest } :=
  step_of_due hq nofun

/-- Settles O34: the reset state is IDLE with nothing pending, and the reset input gives what RESET does. -/
theorem resetInputAndValues : Obligations.ResetInputAndValues := by
  constructor
  · have hlen : State.reset.outLen = 0 := (outLen_eq_zero _).2 (.inl rfl)
    exact ⟨rfl, rfl, rfl, rfl, hlen, rfl, step_of_not_busy rfl nofun⟩
  · intro s rest hq
    obtain ⟨t, hreset, -, -, hwidth, hheight, hstride, hupc, hlen, hstatus, hsrc, hout, -, hinbox, -⟩ :=
      resetGivesTheResetState { s with inbox := rest }
    exact ⟨t, (step_resetInput hq).trans hreset, hreset, hstatus, hwidth, hheight, hstride, hlen, hupc, hsrc, hout,
      hinbox⟩

end Sys2Proof.Proofs
